-- ==== Sys2Proof/Word.lean ====
section
/-! DEFINITION. The machine's word types: every software-visible register is a 32-bit vector
(00_scope.md R8, R9), memory is made of bytes (20_memory.md R60), register numbers and shift amounts
are 5-bit instruction fields (30_encoding.md R101). -/

namespace Sys2Proof

/-- A 32-bit register value, address or instruction word (R9). -/
abbrev Word := BitVec 32

/-- A half-word: 2 consecutive bytes (R61). -/
abbrev Half := BitVec 16

/-- A byte of memory (R60). -/
abbrev Byte := BitVec 8

/-- The number of a general register or of a CP0 register: a 5-bit field (R101). -/
abbrev RegNum := BitVec 5

end Sys2Proof
end

