-- ==== Sys2Proof/Config.lean ====
section
/-! DEFINITION. What the spec leaves to the implementation or the platform (00_scope.md R7) and that is
not state: the constants of the hardware, the settings of the open parameters, and the FREE VALUES,
which have no body, so that nothing can be proved of them. -/

namespace Sys2Proof

/-- Entry of the GIET: every exception, interrupt, SYSCALL and BREAK sets pc here (R75, R310). -/
def Config.gietEntry : Word := 0x80000180#32

/-- Entry of the boot-loader: RESET sets pc here (R75, R360). -/
def Config.bootEntry : Word := 0xBFC00000#32

/-- The link register of JAL, BLTZAL and BGEZAL: R31 (R22, R202). -/
def Config.linkReg : RegNum := 31#5

/-- What MFC0 and MTC0 do with a CP0 number the machine does not define: the parameter `CP0_UNDEF`
(R41, D14). -/
inductive Cp0Undef where
  /-- The model gives the instruction no meaning. -/
  | refuse
  /-- MFC0 returns a draw, MTC0 has no effect. -/
  | anyValue
  /-- The illegal-opcode exception RI. -/
  | ri
  deriving DecidableEq, Repr

/-- The open parameters that are settings (R7). A state holds them, as a machine has them for good. -/
structure Settings where
  /-- `CP0_UNDEF` (R41, D14). -/
  cp0Undef : Cp0Undef
  /-- `DECODE_STRICT`: a word with a non-zero ignored field is refused (R116, D6). -/
  decodeStrict : Bool
  deriving DecidableEq, Repr

/-- The settings `State.reset` holds: for CP0_UNDEF the one of D14's three under which the instruction runs
with an effect of its own, DESIGN CHOICE (notes/assumptions/10.md); for DECODE_STRICT its default, false
(notes/assumptions/11.md). -/
def Config.settings : Settings := ⟨.anyValue, false⟩

/-- Which division a draw of `DivDraw` is for (R178). -/
inductive DivOp where
  | div
  | divu
  deriving DecidableEq, Repr

/-- FREE VALUE `DivDraw(op, x[rs], x[rt])`: the pair (HI, LO) after a division whose result the spec does
not fix, a function of its arguments alone (R178, D20; notes/assumptions/9.md). -/
opaque Config.divDraw : DivOp → Word → Word → Word × Word

/-- FREE VALUE: how many cycles CYCLECOUNT has advanced when it is read in the step of a given boundary
(R40, D15; notes/assumptions/8.md). A natural number, so that the count never goes back but for the
wrap modulo 2^32. -/
opaque Config.cyclesElapsed : Nat → Nat

/-- FREE VALUE: what MFC0 of an undefined CP0 number returns in the step of a given boundary
(R41, D14; notes/assumptions/10.md). -/
opaque Config.cp0Draw : Nat → RegNum → Word

end Sys2Proof
end

