-- ==== Sys2Proof/Syntax.lean ====
section
/-! DEFINITION. The 57 instructions (30_encoding.md R110 to R114), one constructor per row of
spec/opcode_table.json, in the table's order. The operands of a constructor are the fields its row
lists, in the row's order; fields an instruction does not use are no operands (R116). -/

namespace Sys2Proof

/-- An instruction. `rs`, `rt`, `rd` are register numbers, `sh` a shift amount, `imd16` and `imd26` the
immediates (R101). -/
inductive Instr where
  | sll (rt rd : RegNum) (sh : BitVec 5)
  | srl (rt rd : RegNum) (sh : BitVec 5)
  | sra (rt rd : RegNum) (sh : BitVec 5)
  | sllv (rs rt rd : RegNum)
  | srlv (rs rt rd : RegNum)
  | srav (rs rt rd : RegNum)
  | jr (rs : RegNum)
  | jalr (rs rd : RegNum)
  | syscall
  | breakpoint
  | mfhi (rd : RegNum)
  | mthi (rs : RegNum)
  | mflo (rd : RegNum)
  | mtlo (rs : RegNum)
  | mult (rs rt : RegNum)
  | multu (rs rt : RegNum)
  | div (rs rt : RegNum)
  | divu (rs rt : RegNum)
  | add (rs rt rd : RegNum)
  | addu (rs rt rd : RegNum)
  | sub (rs rt rd : RegNum)
  | subu (rs rt rd : RegNum)
  | and (rs rt rd : RegNum)
  | or (rs rt rd : RegNum)
  | xor (rs rt rd : RegNum)
  | nor (rs rt rd : RegNum)
  | slt (rs rt rd : RegNum)
  | sltu (rs rt rd : RegNum)
  | bltz (rs : RegNum) (imd16 : BitVec 16)
  | bgez (rs : RegNum) (imd16 : BitVec 16)
  | bltzal (rs : RegNum) (imd16 : BitVec 16)
  | bgezal (rs : RegNum) (imd16 : BitVec 16)
  | j (imd26 : BitVec 26)
  | jal (imd26 : BitVec 26)
  | beq (rs rt : RegNum) (imd16 : BitVec 16)
  | bne (rs rt : RegNum) (imd16 : BitVec 16)
  | blez (rs : RegNum) (imd16 : BitVec 16)
  | bgtz (rs : RegNum) (imd16 : BitVec 16)
  | addi (rs rt : RegNum) (imd16 : BitVec 16)
  | addiu (rs rt : RegNum) (imd16 : BitVec 16)
  | slti (rs rt : RegNum) (imd16 : BitVec 16)
  | sltiu (rs rt : RegNum) (imd16 : BitVec 16)
  | andi (rs rt : RegNum) (imd16 : BitVec 16)
  | ori (rs rt : RegNum) (imd16 : BitVec 16)
  | xori (rs rt : RegNum) (imd16 : BitVec 16)
  | lui (rt : RegNum) (imd16 : BitVec 16)
  | mfc0 (rt rd : RegNum)
  | mtc0 (rt rd : RegNum)
  | eret
  | lb (rs rt : RegNum) (imd16 : BitVec 16)
  | lh (rs rt : RegNum) (imd16 : BitVec 16)
  | lw (rs rt : RegNum) (imd16 : BitVec 16)
  | lbu (rs rt : RegNum) (imd16 : BitVec 16)
  | lhu (rs rt : RegNum) (imd16 : BitVec 16)
  | sb (rs rt : RegNum) (imd16 : BitVec 16)
  | sh (rs rt : RegNum) (imd16 : BitVec 16)
  | sw (rs rt : RegNum) (imd16 : BitVec 16)
  deriving DecidableEq, Repr

end Sys2Proof
end

