-- ==== Sys2Proof/WellFormed.lean ====
section
/-! DEFINITION. Well-formed instructions. Every operand has exactly the width of its field, so the only
check left is on meaning: MFC0 and MTC0 name one of the six CP0 registers this version defines
(10_state.md R29, R41). The decoder and the encoder do not ask for it: an ill-formed MFC0 or MTC0 still
has an encoding and still runs (notes/assumptions/20.md). -/

namespace Sys2Proof

/-- The six CP0 numbers this version defines (R29). -/
def definedCp0 (n : RegNum) : Bool :=
  n == 8#5 || n == 12#5 || n == 13#5 || n == 14#5 || n == 15#5 || n == 16#5

/-- The spec gives every operand of the instruction a meaning (R29, R41). -/
def Instr.wellFormed : Instr → Bool
  | .mfc0 _ rd => definedCp0 rd
  | .mtc0 _ rd => definedCp0 rd
  | _ => true

end Sys2Proof
end

