-- ==== Sys2Proof/Decode.lean ====
section
/-! DEFINITION. Decoding (30_encoding.md R100 to R122) and, after it, encoding. The decoder is the literal
algorithm of R115; the encoder writes the canonical word of R116; the parameter DECODE_STRICT (R116, D6)
compares the two. -/

namespace Sys2Proof

/-! ## Fields of the instruction word (R101) -/

/-- OPCOD, INS[31:26]. -/
def opcodOf (w : Word) : BitVec 6 := w.extractLsb' 26 6

/-- RS, INS[25:21]. -/
def rsOf (w : Word) : RegNum := w.extractLsb' 21 5

/-- RT, INS[20:16]. -/
def rtOf (w : Word) : RegNum := w.extractLsb' 16 5

/-- RD, INS[15:11]. -/
def rdOf (w : Word) : RegNum := w.extractLsb' 11 5

/-- SH, INS[10:6]. -/
def shOf (w : Word) : BitVec 5 := w.extractLsb' 6 5

/-- FUNC, INS[5:0]. -/
def funcOf (w : Word) : BitVec 6 := w.extractLsb' 0 6

/-- IMD16, INS[15:0]. -/
def imd16Of (w : Word) : BitVec 16 := w.extractLsb' 0 16

/-- IMD26, INS[25:0]. -/
def imd26Of (w : Word) : BitVec 26 := w.extractLsb' 0 26

/-! ## Decoding (R115) -/

/-- Why bytes are no instruction. -/
inductive DecodeReject where
  /-- OPCOD is an empty cell of the first-level table (R110, R120 (a)): the processor raises RI. -/
  | emptyOpcode (opcod : BitVec 6)
  /-- OPCOD is SPECIAL and FUNC is an empty cell of its table (R111, R120 (b)): the processor raises RI. -/
  | emptyFunction (func : BitVec 6)
  /-- A word whose unused fields are not zero, under DECODE_STRICT only (R116, D6). -/
  | nonCanonical (word : Word)
  /-- Fewer than the four bytes every instruction has (R100). -/
  | tooShort
  deriving DecidableEq, Repr

/-- Second level, OPCOD = SPECIAL: select by FUNC (R111). -/
def decodeSpecial (w : Word) : Except DecodeReject Instr :=
  match funcOf w with
  | 0b000000#6 => .ok (.sll (rtOf w) (rdOf w) (shOf w))
  | 0b000010#6 => .ok (.srl (rtOf w) (rdOf w) (shOf w))
  | 0b000011#6 => .ok (.sra (rtOf w) (rdOf w) (shOf w))
  | 0b000100#6 => .ok (.sllv (rsOf w) (rtOf w) (rdOf w))
  | 0b000110#6 => .ok (.srlv (rsOf w) (rtOf w) (rdOf w))
  | 0b000111#6 => .ok (.srav (rsOf w) (rtOf w) (rdOf w))
  | 0b001000#6 => .ok (.jr (rsOf w))
  | 0b001001#6 => .ok (.jalr (rsOf w) (rdOf w))
  | 0b001100#6 => .ok .syscall
  | 0b001101#6 => .ok .breakpoint
  | 0b010000#6 => .ok (.mfhi (rdOf w))
  | 0b010001#6 => .ok (.mthi (rsOf w))
  | 0b010010#6 => .ok (.mflo (rdOf w))
  | 0b010011#6 => .ok (.mtlo (rsOf w))
  | 0b011000#6 => .ok (.mult (rsOf w) (rtOf w))
  | 0b011001#6 => .ok (.multu (rsOf w) (rtOf w))
  | 0b011010#6 => .ok (.div (rsOf w) (rtOf w))
  | 0b011011#6 => .ok (.divu (rsOf w) (rtOf w))
  | 0b100000#6 => .ok (.add (rsOf w) (rtOf w) (rdOf w))
  | 0b100001#6 => .ok (.addu (rsOf w) (rtOf w) (rdOf w))
  | 0b100010#6 => .ok (.sub (rsOf w) (rtOf w) (rdOf w))
  | 0b100011#6 => .ok (.subu (rsOf w) (rtOf w) (rdOf w))
  | 0b100100#6 => .ok (.and (rsOf w) (rtOf w) (rdOf w))
  | 0b100101#6 => .ok (.or (rsOf w) (rtOf w) (rdOf w))
  | 0b100110#6 => .ok (.xor (rsOf w) (rtOf w) (rdOf w))
  | 0b100111#6 => .ok (.nor (rsOf w) (rtOf w) (rdOf w))
  | 0b101010#6 => .ok (.slt (rsOf w) (rtOf w) (rdOf w))
  | 0b101011#6 => .ok (.sltu (rsOf w) (rtOf w) (rdOf w))
  | f => .error (.emptyFunction f)

/-- Second level, OPCOD = BCOND: select by INS[20] and INS[16]; all four are instructions (R112). -/
def decodeBcond (w : Word) : Instr :=
  match w.getLsbD 20, w.getLsbD 16 with
  | false, false => .bltz (rsOf w) (imd16Of w)
  | false, true => .bgez (rsOf w) (imd16Of w)
  | true, false => .bltzal (rsOf w) (imd16Of w)
  | true, true => .bgezal (rsOf w) (imd16Of w)

/-- Second level, OPCOD = COPRO: INS[25] selects ERET, else INS[23] selects MTC0 or MFC0 (R113, C1). -/
def decodeCopro (w : Word) : Instr :=
  match w.getLsbD 25, w.getLsbD 23 with
  | true, _ => .eret
  | false, false => .mfc0 (rtOf w) (rdOf w)
  | false, true => .mtc0 (rtOf w) (rdOf w)

/-- Literal decoding of an instruction word (R110, R115): no other bit selects the instruction, and the
fields it does not use are ignored. -/
def decodeLiteral (w : Word) : Except DecodeReject Instr :=
  match opcodOf w with
  | 0b000000#6 => decodeSpecial w
  | 0b000001#6 => .ok (decodeBcond w)
  | 0b000010#6 => .ok (.j (imd26Of w))
  | 0b000011#6 => .ok (.jal (imd26Of w))
  | 0b000100#6 => .ok (.beq (rsOf w) (rtOf w) (imd16Of w))
  | 0b000101#6 => .ok (.bne (rsOf w) (rtOf w) (imd16Of w))
  | 0b000110#6 => .ok (.blez (rsOf w) (imd16Of w))
  | 0b000111#6 => .ok (.bgtz (rsOf w) (imd16Of w))
  | 0b001000#6 => .ok (.addi (rsOf w) (rtOf w) (imd16Of w))
  | 0b001001#6 => .ok (.addiu (rsOf w) (rtOf w) (imd16Of w))
  | 0b001010#6 => .ok (.slti (rsOf w) (rtOf w) (imd16Of w))
  | 0b001011#6 => .ok (.sltiu (rsOf w) (rtOf w) (imd16Of w))
  | 0b001100#6 => .ok (.andi (rsOf w) (rtOf w) (imd16Of w))
  | 0b001101#6 => .ok (.ori (rsOf w) (rtOf w) (imd16Of w))
  | 0b001110#6 => .ok (.xori (rsOf w) (rtOf w) (imd16Of w))
  | 0b001111#6 => .ok (.lui (rtOf w) (imd16Of w))
  | 0b010000#6 => .ok (decodeCopro w)
  | 0b100000#6 => .ok (.lb (rsOf w) (rtOf w) (imd16Of w))
  | 0b100001#6 => .ok (.lh (rsOf w) (rtOf w) (imd16Of w))
  | 0b100011#6 => .ok (.lw (rsOf w) (rtOf w) (imd16Of w))
  | 0b100100#6 => .ok (.lbu (rsOf w) (rtOf w) (imd16Of w))
  | 0b100101#6 => .ok (.lhu (rsOf w) (rtOf w) (imd16Of w))
  | 0b101000#6 => .ok (.sb (rsOf w) (rtOf w) (imd16Of w))
  | 0b101001#6 => .ok (.sh (rsOf w) (rtOf w) (imd16Of w))
  | 0b101011#6 => .ok (.sw (rsOf w) (rtOf w) (imd16Of w))
  | op => .error (.emptyOpcode op)

/-! ## Encoding (R102 to R104, R116) -/

/-- A Format R word: OPCOD, RS, RT, RD, SH, FUNC (R102). -/
def formatR (opcod : BitVec 6) (rs rt rd : RegNum) (sh : BitVec 5) (func : BitVec 6) : Word :=
  opcod ++ rs ++ rt ++ rd ++ sh ++ func

/-- A Format I word: OPCOD, RS, RT, IMD16 (R103). -/
def formatI (opcod : BitVec 6) (rs rt : RegNum) (imd16 : BitVec 16) : Word :=
  opcod ++ rs ++ rt ++ imd16

/-- A Format J word: OPCOD, IMD26 (R104). -/
def formatJ (opcod : BitVec 6) (imd26 : BitVec 26) : Word :=
  opcod ++ imd26

/-- A word of the family SPECIAL (R111). -/
def special (rs rt rd : RegNum) (sh : BitVec 5) (func : BitVec 6) : Word :=
  formatR 0b000000#6 rs rt rd sh func

/-- The canonical word of an instruction: unused fields are zero (R116). -/
def encode : Instr → Word
  | .sll rt rd sh => special 0 rt rd sh 0b000000#6
  | .srl rt rd sh => special 0 rt rd sh 0b000010#6
  | .sra rt rd sh => special 0 rt rd sh 0b000011#6
  | .sllv rs rt rd => special rs rt rd 0 0b000100#6
  | .srlv rs rt rd => special rs rt rd 0 0b000110#6
  | .srav rs rt rd => special rs rt rd 0 0b000111#6
  | .jr rs => special rs 0 0 0 0b001000#6
  | .jalr rs rd => special rs 0 rd 0 0b001001#6
  | .syscall => special 0 0 0 0 0b001100#6
  | .breakpoint => special 0 0 0 0 0b001101#6
  | .mfhi rd => special 0 0 rd 0 0b010000#6
  | .mthi rs => special rs 0 0 0 0b010001#6
  | .mflo rd => special 0 0 rd 0 0b010010#6
  | .mtlo rs => special rs 0 0 0 0b010011#6
  | .mult rs rt => special rs rt 0 0 0b011000#6
  | .multu rs rt => special rs rt 0 0 0b011001#6
  | .div rs rt => special rs rt 0 0 0b011010#6
  | .divu rs rt => special rs rt 0 0 0b011011#6
  | .add rs rt rd => special rs rt rd 0 0b100000#6
  | .addu rs rt rd => special rs rt rd 0 0b100001#6
  | .sub rs rt rd => special rs rt rd 0 0b100010#6
  | .subu rs rt rd => special rs rt rd 0 0b100011#6
  | .and rs rt rd => special rs rt rd 0 0b100100#6
  | .or rs rt rd => special rs rt rd 0 0b100101#6
  | .xor rs rt rd => special rs rt rd 0 0b100110#6
  | .nor rs rt rd => special rs rt rd 0 0b100111#6
  | .slt rs rt rd => special rs rt rd 0 0b101010#6
  | .sltu rs rt rd => special rs rt rd 0 0b101011#6
  | .bltz rs imd16 => formatI 0b000001#6 rs 0b00000#5 imd16
  | .bgez rs imd16 => formatI 0b000001#6 rs 0b00001#5 imd16
  | .bltzal rs imd16 => formatI 0b000001#6 rs 0b10000#5 imd16
  | .bgezal rs imd16 => formatI 0b000001#6 rs 0b10001#5 imd16
  | .j imd26 => formatJ 0b000010#6 imd26
  | .jal imd26 => formatJ 0b000011#6 imd26
  | .beq rs rt imd16 => formatI 0b000100#6 rs rt imd16
  | .bne rs rt imd16 => formatI 0b000101#6 rs rt imd16
  | .blez rs imd16 => formatI 0b000110#6 rs 0 imd16
  | .bgtz rs imd16 => formatI 0b000111#6 rs 0 imd16
  | .addi rs rt imd16 => formatI 0b001000#6 rs rt imd16
  | .addiu rs rt imd16 => formatI 0b001001#6 rs rt imd16
  | .slti rs rt imd16 => formatI 0b001010#6 rs rt imd16
  | .sltiu rs rt imd16 => formatI 0b001011#6 rs rt imd16
  | .andi rs rt imd16 => formatI 0b001100#6 rs rt imd16
  | .ori rs rt imd16 => formatI 0b001101#6 rs rt imd16
  | .xori rs rt imd16 => formatI 0b001110#6 rs rt imd16
  | .lui rt imd16 => formatI 0b001111#6 0 rt imd16
  | .mfc0 rt rd => formatR 0b010000#6 0b00000#5 rt rd 0 0
  | .mtc0 rt rd => formatR 0b010000#6 0b00100#5 rt rd 0 0
  | .eret => formatR 0b010000#6 0b10000#5 0 0 0 0b011000#6
  | .lb rs rt imd16 => formatI 0b100000#6 rs rt imd16
  | .lh rs rt imd16 => formatI 0b100001#6 rs rt imd16
  | .lw rs rt imd16 => formatI 0b100011#6 rs rt imd16
  | .lbu rs rt imd16 => formatI 0b100100#6 rs rt imd16
  | .lhu rs rt imd16 => formatI 0b100101#6 rs rt imd16
  | .sb rs rt imd16 => formatI 0b101000#6 rs rt imd16
  | .sh rs rt imd16 => formatI 0b101001#6 rs rt imd16
  | .sw rs rt imd16 => formatI 0b101011#6 rs rt imd16

/-! ## DECODE_STRICT, and instructions as the bytes of memory -/

/-- Decoding under a setting of DECODE_STRICT: when it is true, every word that is not canonical is
rejected (R116, D6). -/
def decodeWith (strict : Bool) (w : Word) : Except DecodeReject Instr :=
  match decodeLiteral w with
  | .error r => .error r
  | .ok i => if strict && encode i != w then .error (.nonCanonical w) else .ok i

/-- Four bytes, the one at the lowest address first, as a word: little endian (R63, R65, R100). -/
def wordOfBytes (b0 b1 b2 b3 : Byte) : Word := b3 ++ b2 ++ b1 ++ b0

/-- The bytes of a word, the one at the lowest address first (R64). -/
def bytesOfWord (w : Word) : List Byte :=
  [w.extractLsb' 0 8, w.extractLsb' 8 8, w.extractLsb' 16 8, w.extractLsb' 24 8]

/-- Decode the instruction at the head of a list of bytes, under a setting of DECODE_STRICT, and give the bytes after it; every instruction
is four bytes long (R100). -/
def decode (strict : Bool) : List Byte → Except DecodeReject (Instr × List Byte)
  | b0 :: b1 :: b2 :: b3 :: rest =>
    match decodeWith strict (wordOfBytes b0 b1 b2 b3) with
    | .ok i => .ok (i, rest)
    | .error r => .error r
  | _ => .error .tooShort

/-- The table's numbering of an instruction's bits as a word: `nbits` bits are given, those above are
zero. -/
def tableWord (nbits w : Nat) : Word := BitVec.ofNat 32 (w % 2 ^ nbits)

/-- The instruction the decoder reads from an instruction whose bits are `w`, numbered as
spec/opcode_table.json numbers them, laid out as the hardware stores it. -/
def decodeTableWord (nbits w : Nat) : Option Instr :=
  match decode Config.settings.decodeStrict (bytesOfWord (tableWord nbits w)) with
  | .ok (i, _) => some i
  | .error _ => none

/-! ## The rows of the opcode table -/

/-- The bits that select an instruction under R115, and their values: `mask` and `match` of its row in
spec/opcode_table.json (R115). -/
def Instr.row : Instr → Word × Word
  | .sll .. => (0xFC00003F#32, 0x00000000#32)
  | .srl .. => (0xFC00003F#32, 0x00000002#32)
  | .sra .. => (0xFC00003F#32, 0x00000003#32)
  | .sllv .. => (0xFC00003F#32, 0x00000004#32)
  | .srlv .. => (0xFC00003F#32, 0x00000006#32)
  | .srav .. => (0xFC00003F#32, 0x00000007#32)
  | .jr .. => (0xFC00003F#32, 0x00000008#32)
  | .jalr .. => (0xFC00003F#32, 0x00000009#32)
  | .syscall => (0xFC00003F#32, 0x0000000C#32)
  | .breakpoint => (0xFC00003F#32, 0x0000000D#32)
  | .mfhi .. => (0xFC00003F#32, 0x00000010#32)
  | .mthi .. => (0xFC00003F#32, 0x00000011#32)
  | .mflo .. => (0xFC00003F#32, 0x00000012#32)
  | .mtlo .. => (0xFC00003F#32, 0x00000013#32)
  | .mult .. => (0xFC00003F#32, 0x00000018#32)
  | .multu .. => (0xFC00003F#32, 0x00000019#32)
  | .div .. => (0xFC00003F#32, 0x0000001A#32)
  | .divu .. => (0xFC00003F#32, 0x0000001B#32)
  | .add .. => (0xFC00003F#32, 0x00000020#32)
  | .addu .. => (0xFC00003F#32, 0x00000021#32)
  | .sub .. => (0xFC00003F#32, 0x00000022#32)
  | .subu .. => (0xFC00003F#32, 0x00000023#32)
  | .and .. => (0xFC00003F#32, 0x00000024#32)
  | .or .. => (0xFC00003F#32, 0x00000025#32)
  | .xor .. => (0xFC00003F#32, 0x00000026#32)
  | .nor .. => (0xFC00003F#32, 0x00000027#32)
  | .slt .. => (0xFC00003F#32, 0x0000002A#32)
  | .sltu .. => (0xFC00003F#32, 0x0000002B#32)
  | .bltz .. => (0xFC110000#32, 0x04000000#32)
  | .bgez .. => (0xFC110000#32, 0x04010000#32)
  | .bltzal .. => (0xFC110000#32, 0x04100000#32)
  | .bgezal .. => (0xFC110000#32, 0x04110000#32)
  | .j .. => (0xFC000000#32, 0x08000000#32)
  | .jal .. => (0xFC000000#32, 0x0C000000#32)
  | .beq .. => (0xFC000000#32, 0x10000000#32)
  | .bne .. => (0xFC000000#32, 0x14000000#32)
  | .blez .. => (0xFC000000#32, 0x18000000#32)
  | .bgtz .. => (0xFC000000#32, 0x1C000000#32)
  | .addi .. => (0xFC000000#32, 0x20000000#32)
  | .addiu .. => (0xFC000000#32, 0x24000000#32)
  | .slti .. => (0xFC000000#32, 0x28000000#32)
  | .sltiu .. => (0xFC000000#32, 0x2C000000#32)
  | .andi .. => (0xFC000000#32, 0x30000000#32)
  | .ori .. => (0xFC000000#32, 0x34000000#32)
  | .xori .. => (0xFC000000#32, 0x38000000#32)
  | .lui .. => (0xFC000000#32, 0x3C000000#32)
  | .mfc0 .. => (0xFE800000#32, 0x40000000#32)
  | .mtc0 .. => (0xFE800000#32, 0x40800000#32)
  | .eret => (0xFE000000#32, 0x42000000#32)
  | .lb .. => (0xFC000000#32, 0x80000000#32)
  | .lh .. => (0xFC000000#32, 0x84000000#32)
  | .lw .. => (0xFC000000#32, 0x8C000000#32)
  | .lbu .. => (0xFC000000#32, 0x90000000#32)
  | .lhu .. => (0xFC000000#32, 0x94000000#32)
  | .sb .. => (0xFC000000#32, 0xA0000000#32)
  | .sh .. => (0xFC000000#32, 0xA4000000#32)
  | .sw .. => (0xFC000000#32, 0xAC000000#32)

/-- The bits of an instruction's operand fields (R101, R116): with `row`, all the bits of its word that
are not ignored. -/
def Instr.operandBits : Instr → Word
  | .sll .. | .srl .. | .sra .. => 0x001FFFC0#32
  | .sllv .. | .srlv .. | .srav .. => 0x03FFF800#32
  | .jr _ | .mthi _ | .mtlo _ => 0x03E00000#32
  | .jalr .. => 0x03E0F800#32
  | .syscall | .breakpoint | .eret => 0x00000000#32
  | .mfhi _ | .mflo _ => 0x0000F800#32
  | .mult .. | .multu .. | .div .. | .divu .. => 0x03FF0000#32
  | .add .. | .addu .. | .sub .. | .subu .. | .and .. | .or .. | .xor .. | .nor .. | .slt .. | .sltu .. =>
    0x03FFF800#32
  | .bltz .. | .bgez .. | .bltzal .. | .bgezal .. | .blez .. | .bgtz .. => 0x03E0FFFF#32
  | .j _ | .jal _ => 0x03FFFFFF#32
  | .beq .. | .bne .. | .addi .. | .addiu .. | .slti .. | .sltiu .. | .andi .. | .ori .. | .xori .. =>
    0x03FFFFFF#32
  | .lui .. => 0x001FFFFF#32
  | .mfc0 .. | .mtc0 .. => 0x001FF800#32
  | .lb .. | .lh .. | .lw .. | .lbu .. | .lhu .. | .sb .. | .sh .. | .sw .. => 0x03FFFFFF#32

end Sys2Proof
end

