-- ==== Sys2Proof/Machine/State.lean ====
section
/-! DEFINITION. The state of one processor and its memory (10_state.md), as plain data, the reasons the
model stops, and the state right after reset (10_state.md R45). -/

namespace Sys2Proof.Machine

/-! ## Registers made of fields -/

/-- SR, CP0 register 12: its 12 implemented bits (R31). The other 20 bits do not exist: they read as zero
and ignore writes (R32, D11). -/
structure StatusReg where
  /-- IM, bits 15:8: the masks of the six hardware lines (7:2) and of the two software interrupts (1:0). -/
  im : BitVec 8
  /-- UM, bit 4: user mode. -/
  um : Bool
  /-- ERL, bit 2: reset level. -/
  erl : Bool
  /-- EXL, bit 1: exception level. -/
  exl : Bool
  /-- IE, bit 0: interrupt enable. -/
  ie : Bool
  deriving DecidableEq, Repr

/-- CR, CP0 register 13: its three fields (R34). The other 20 bits read as zero (R35). -/
structure CauseReg where
  /-- IRQ, bits 15:10: the six external interrupt lines. -/
  irq : BitVec 6
  /-- SWI, bits 9:8: the two software interrupt requests. -/
  swi : BitVec 2
  /-- XCODE, bits 5:2: the cause of the last call to the GIET. -/
  xcode : BitVec 4
  deriving DecidableEq, Repr

/-! ## Memory -/

/-- Memory, held sparsely: the bytes that differ from what an unlisted address reads as, by strictly rising
address (R60; notes/assumptions/4.md). Read and write it only by the operations of Machine/Memory.lean. -/
abbrev Memory := List Host.Cell

/-- What an access is for (R11). -/
inductive AccessKind where
  | fetch
  | load
  | store
  deriving DecidableEq, Repr

/-- The sizes of an access: 1, 2 or 4 bytes (R61). -/
inductive Width where
  | byte
  | half
  | word
  deriving DecidableEq, Repr

/-! ## The environment's inputs, as data -/

/-- Accesses that the memory system answers with BERR: those of one of `kinds` and one of `widths` at an
address from `first` to `last`. A list of these stands for the predicate `BusError(addr, n, kind)`
(R72, D24; notes/assumptions/5.md). -/
structure BerrRegion where
  first : Word
  last : Word
  widths : List Width
  kinds : List AccessKind
  deriving DecidableEq, Repr

/-- The input pins at one instruction boundary: `IrqLines(t)` and `Reset(t)` (R7, R43). -/
structure PinSample where
  irqLines : BitVec 6
  reset : Bool
  deriving DecidableEq, Repr

/-! ## The state -/

/-- The state of the machine between two instruction boundaries. -/
structure State where
  /-- R1 to R31, R1 first; R0 is a constant and has no storage (R20, R21). -/
  gpr : Vector Word 31
  /-- PC (R24). -/
  pc : Word
  /-- HI (R27). -/
  hi : Word
  /-- LO (R27). -/
  lo : Word
  /-- SR, CP0 register 12 (R30). -/
  sr : StatusReg
  /-- CR, CP0 register 13 (R33). -/
  cr : CauseReg
  /-- EPC, CP0 register 14 (R37). -/
  epc : Word
  /-- BAR, CP0 register 8 (R38). -/
  bar : Word
  /-- PROCID, CP0 register 15: hardwired, no operation writes it (R39; notes/assumptions/3.md). -/
  procid : Word
  /-- CYCLECOUNT, CP0 register 16: the last count drawn since RESET (R40; notes/assumptions/8.md). -/
  cyclecount : Word
  /-- Memory (R60). -/
  mem : Memory
  /-- The settings of CP0_UNDEF and DECODE_STRICT: parameters, no operation writes them (R7;
  notes/assumptions/10.md, 11.md). -/
  settings : Settings
  /-- The MODEL's own: the accesses that get BERR (R72; notes/assumptions/5.md). -/
  berr : List BerrRegion
  /-- The MODEL's own: the samples of the input pins at the boundaries to come, the next one first; no
  line is active at the boundaries after the last (R43; notes/assumptions/6.md). -/
  pins : List PinSample
  /-- The MODEL's own: how many boundaries have passed; it indexes the free values
  (notes/assumptions/7.md). -/
  tick : Nat
  deriving DecidableEq, Repr

/-! ## Why the model stops -/

/-- Faults: none. Every exception of the spec is taken (R310) and the whole address space exists (R60), so
that nothing in the architecture stops the machine (R266, D32; notes/assumptions/13.md). -/
inductive Fault where
  deriving DecidableEq, Repr

/-- Refusals: instructions the model gives no meaning. -/
inductive Refusal where
  /-- Raised by an arm of `exec` whose instruction has no meaning yet; no arm does. Safe. -/
  | notModelled (mnemonic : String)
  /-- Raised by fetching in a machine with DECODE_STRICT = true only, for a word whose unused fields are not zero
  (R116, D6; notes/assumptions/11.md). Safe. -/
  | nonCanonicalWord (word : Word)
  /-- Raised by MFC0 and MTC0 in a machine with CP0_UNDEF = refuse only, for a CP0 number the machine does not define
  (R41, D14; notes/assumptions/10.md). Safe. -/
  | undefinedCp0 (number : RegNum)
  deriving DecidableEq, Repr

/-- What a step or an instruction answers. -/
abbrev Result := Host.Outcome State Fault Refusal

/-! ## Reset -/

/-- SR after RESET: 0x0004, so ERL = 1 and every other bit 0 (R45, R360). -/
def StatusReg.afterReset : StatusReg := ⟨0#8, false, true, false, false⟩

/-- The machine right after power-on RESET (R45): pc, SR and CYCLECOUNT as the spec gives them; every other
register at the value the log names (notes/assumptions/1.md, 2.md, 3.md); memory lists nothing (4.md), the
settings are those of Config (10.md, 11.md), no access gets BERR (5.md), no pin is active (6.md). -/
def State.reset : State where
  gpr := Vector.replicate 31 0#32
  pc := Config.bootEntry
  hi := 0#32
  lo := 0#32
  sr := StatusReg.afterReset
  cr := ⟨0#6, 0#2, 0#4⟩
  epc := 0#32
  bar := 0#32
  procid := 0#32
  cyclecount := 0#32
  mem := []
  settings := Config.settings
  berr := []
  pins := []
  tick := 0

end Sys2Proof.Machine
end

