-- ==== Sys2Proof/Machine/Flags.lean ====
section
/-! DEFINITION. The machine has no flags (10_state.md R28). What it computes in their place: the overflow
test of ADD, ADDI and SUB (40_arith_logic.md R143, R145, R177), the Booleans of the comparisons (R151,
R152) and the conditions of the branches (41_branch_jump.md R208 to R215). -/

namespace Sys2Proof.Machine

/-- The 33-bit sum of two sign-extended words (R143). -/
def sum33 (a b : Word) : BitVec 33 := a.signExtend 33 + b.signExtend 33

/-- The 33-bit difference of two sign-extended words (R145). -/
def diff33 (a b : Word) : BitVec 33 := a.signExtend 33 - b.signExtend 33

/-- A 33-bit result does not fit 32 bits: its two top bits differ (R143, R145). -/
def overflow33 (t : BitVec 33) : Bool := t.getLsbD 32 != t.getLsbD 31

/-- ADD and ADDI overflow (R143, R167, R177). -/
def addOverflows (a b : Word) : Bool := overflow33 (sum33 a b)

/-- SUB overflows (R145, R177). -/
def subOverflows (a b : Word) : Bool := overflow33 (diff33 a b)

/-- The Boolean a comparison leaves in a register: 1 or 0 (R28, R151). -/
def boolWord (b : Bool) : Word := if b then 1#32 else 0#32

/-- `a <_s b` (R9, R151). -/
def lessSigned (a b : Word) : Bool := decide (a.toInt < b.toInt)

/-- `a <_u b` (R9, R152). -/
def lessUnsigned (a b : Word) : Bool := decide (a.toNat < b.toNat)

/-- The condition of BLTZ and BLTZAL: bit 31 is 1 (R212). -/
def isNegative (a : Word) : Bool := a.getLsbD 31

/-- The condition of BLEZ: bit 31 is 1 or the value is 0 (R210). -/
def isNotPositive (a : Word) : Bool := isNegative a || a == 0#32

end Sys2Proof.Machine
end

