-- ==== Sys2Proof/Machine/Memory.lean ====
section
/-! DEFINITION. The operations over memory (20_memory.md R60 to R66): reading and writing one byte of the
sparse list, its canonical form, and little-endian half-words and words built from bytes in one place. -/

namespace Sys2Proof.Machine

/-- What a byte that the list does not hold reads as. DESIGN CHOICE (notes/assumptions/4.md). -/
def unlistedByte : Byte := 0x00#8

/-- The byte at an address (R60). -/
def Memory.read : Memory → Nat → Byte
  | [], _ => unlistedByte
  | (k, v) :: m, a => if k = a then v else Memory.read m a

/-- Put a byte in its place in the list. -/
def Memory.insert : Memory → Nat → Byte → Memory
  | [], a, b => [(a, b)]
  | (k, v) :: m, a, b =>
    if a < k then (a, b) :: (k, v) :: m
    else if a = k then (a, b) :: m
    else (k, v) :: Memory.insert m a b

/-- Take an address out of the list, so that it reads as unlisted. -/
def Memory.erase (m : Memory) (a : Nat) : Memory :=
  m.filter fun c => c.1 != a

/-- Store a byte at an address, keeping the canonical form (R64). -/
def Memory.write (m : Memory) (a : Nat) (b : Byte) : Memory :=
  if b = unlistedByte then m.erase a else m.insert a b

/-- Every address of the list is above `a`, the addresses rise strictly and stay inside the 32-bit space,
and no entry is equal to what an unlisted address reads as. -/
def Memory.wfAbove : Option Nat → Memory → Bool
  | _, [] => true
  | low, (k, v) :: m =>
    (match low with | none => true | some a => decide (a < k)) &&
      decide (k < 2 ^ 32) && v != unlistedByte && Memory.wfAbove (some k) m

/-- The canonical form of memory: equal memories are equal lists. -/
def Memory.wf (m : Memory) : Bool := Memory.wfAbove none m

/-- The byte at a 32-bit address (R60). -/
def Memory.byteAt (m : Memory) (a : Word) : Byte := m.read a.toNat

/-- The half-word at an address: the byte at the address is the low one (R63). -/
def Memory.halfAt (m : Memory) (a : Word) : Half :=
  m.byteAt (a + 1#32) ++ m.byteAt a

/-- The word at an address: the byte at the address is the lowest one (R63). -/
def Memory.wordAt (m : Memory) (a : Word) : Word :=
  m.byteAt (a + 3#32) ++ m.byteAt (a + 2#32) ++ m.byteAt (a + 1#32) ++ m.byteAt a

/-- Store a byte at a 32-bit address (R64). -/
def Memory.setByte (m : Memory) (a : Word) (b : Byte) : Memory := m.write a.toNat b

/-- Store a half-word: its low byte at the address (R64). -/
def Memory.setHalf (m : Memory) (a : Word) (v : Half) : Memory :=
  (m.setByte a (v.extractLsb' 0 8)).setByte (a + 1#32) (v.extractLsb' 8 8)

/-- Store a word: its lowest byte at the address (R64). -/
def Memory.setWord (m : Memory) (a : Word) (v : Word) : Memory :=
  (((m.setByte a (v.extractLsb' 0 8)).setByte (a + 1#32) (v.extractLsb' 8 8)).setByte (a + 2#32)
    (v.extractLsb' 16 8)).setByte (a + 3#32) (v.extractLsb' 24 8)

/-- How many bytes an access moves (R61). -/
def Width.bytes : Width → Nat
  | .byte => 1
  | .half => 2
  | .word => 4

/-- The address `b` is one of the bytes of an access of width `w` at `a` (R64). -/
def Width.covers (w : Width) (a b : Word) : Bool := decide ((b - a).toNat < w.bytes)

end Sys2Proof.Machine
end

