-- ==== Sys2Proof/Machine/Operands.lean ====
section
/-! DEFINITION. The operand forms: immediates (30_encoding.md R105), shift amounts (R109), effective
addresses (20_memory.md R68), branch and jump targets (R107, R108), and the general registers
(10_state.md R20, R21), read and written here only. -/

namespace Sys2Proof.Machine

/-! ## General registers -/

/-- The content of general register `i` in a register file: R0 reads as zero (R21). -/
def readGpr (g : Vector Word 31) (i : RegNum) : Word :=
  if h : i = 0#5 then 0#32
  else g[i.toNat - 1]'(by
    have h1 := i.isLt
    have h2 : i.toNat ≠ 0 := fun hz => h (BitVec.eq_of_toNat_eq hz)
    omega)

/-- A register file after a write to general register `i`: a write to R0 is discarded (R21). -/
def writeGpr (g : Vector Word 31) (i : RegNum) (v : Word) : Vector Word 31 :=
  if h : i = 0#5 then g
  else g.set (i.toNat - 1) v (by
    have h1 := i.isLt
    have h2 : i.toNat ≠ 0 := fun hz => h (BitVec.eq_of_toNat_eq hz)
    omega)

/-- `x[i]` (R10). -/
def State.reg (s : State) (i : RegNum) : Word := readGpr s.gpr i

/-- `x[i] <- v` (R10). -/
def State.setReg (s : State) (i : RegNum) (v : Word) : State :=
  { s with gpr := writeGpr s.gpr i v }

/-! ## Immediates and amounts -/

/-- The signed immediate of the arithmetic operations, loads and stores: `sext_32(IMD16)` (R105, R106). -/
def sext32 (imd16 : BitVec 16) : Word := imd16.signExtend 32

/-- The unsigned immediate of the logical operations: `zext_32(IMD16)` (R105). -/
def zext32 (imd16 : BitVec 16) : Word := imd16.zeroExtend 32

/-- The immediate of LUI: `IMD16 || 0^16` (R105, R174). -/
def upper32 (imd16 : BitVec 16) : Word := imd16 ++ 0#16

/-- The amount of SLLV, SRLV and SRAV: the low five bits of the register (R109). -/
def lowFive (v : Word) : BitVec 5 := v.extractLsb' 0 5

/-! ## Addresses -/

/-- The address of a load or store: `x[rs] + sext_32(IMD16)` modulo 2^32 (R68, R230). -/
def State.effAddr (s : State) (rs : RegNum) (imd16 : BitVec 16) : Word := s.reg rs + sext32 imd16

/-- The address of the next word in memory, modulo 2^32 (R25, R26). -/
def State.nextPc (s : State) : Word := s.pc + 4#32

/-- The target of a conditional branch: `pc + 4 + (sext_32(IMD16) << 2)` (R107, D2). -/
def State.branchTarget (s : State) (imd16 : BitVec 16) : Word := s.nextPc + (sext32 imd16 <<< 2)

/-- The target of J and JAL: `(pc + 4)[31:28] || IMD26 || "00"` (R108, D3). -/
def State.jumpTarget (s : State) (imd26 : BitVec 26) : Word :=
  s.nextPc.extractLsb' 28 4 ++ imd26 ++ 0#2

end Sys2Proof.Machine
end

