-- ==== Sys2Proof/Machine/Ops.lean ====
section
/-! DEFINITION. The shared operations every meaning is made of: privilege, the CP0 registers, taking an
exception and returning from one, memory accesses with their checks, the ways an instruction completes,
and what happens at an instruction boundary before an instruction runs. -/

namespace Sys2Proof.Machine

/-! ## Privilege (60_exceptions.md R330) -/

/-- `privileged()`: UM = 0, or EXL = 1, or ERL = 1 (R330). -/
def State.privileged (s : State) : Bool := !s.sr.um || s.sr.exl || s.sr.erl

/-! ## The CP0 registers as words (10_state.md R31 to R35) -/

/-- SR as MFC0 returns it: the 12 bits in their places, zeros elsewhere (R31, R32). -/
def StatusReg.toWord (r : StatusReg) : Word :=
  0#16 ++ r.im ++ 0#3 ++ BitVec.ofBool r.um ++ 0#1 ++ BitVec.ofBool r.erl ++ BitVec.ofBool r.exl ++
    BitVec.ofBool r.ie

/-- SR as MTC0 writes it: the 12 bits from their places, the other bits ignored (R32). -/
def StatusReg.ofWord (v : Word) : StatusReg where
  im := v.extractLsb' 8 8
  um := v.getLsbD 4
  erl := v.getLsbD 2
  exl := v.getLsbD 1
  ie := v.getLsbD 0

/-- CR as MFC0 returns it: the three fields in their places, zeros elsewhere (R34, R35). -/
def CauseReg.toWord (r : CauseReg) : Word :=
  0#16 ++ r.irq ++ r.swi ++ 0#2 ++ r.xcode ++ 0#2

/-- CR after an MTC0: only SWI is written (R35). -/
def CauseReg.writeSwi (r : CauseReg) (v : Word) : CauseReg :=
  { r with swi := v.extractLsb' 8 2 }

/-- The interrupt requests, `CR.IRQ[5:0] || CR.SWI[1:0]` (R320). -/
def CauseReg.requests (r : CauseReg) : BitVec 8 := r.irq ++ r.swi

/-! ## Causes and trap entry (60_exceptions.md R301 to R315) -/

/-- The causes of a call to the GIET (R301). -/
inductive Cause where
  | int
  | adel
  | ades
  | ibe
  | dbe
  | sys
  | bp
  | ri
  | cpu
  | ovf
  deriving DecidableEq, Repr

/-- XCODE of a cause (R301). -/
def Cause.code : Cause → BitVec 4
  | .int => 0b0000#4
  | .adel => 0b0100#4
  | .ades => 0b0101#4
  | .ibe => 0b0110#4
  | .dbe => 0b0111#4
  | .sys => 0b1000#4
  | .bp => 0b1001#4
  | .ri => 0b1010#4
  | .cpu => 0b1011#4
  | .ovf => 0b1100#4

/-- The seven exceptions, with the bad address for ADEL and ADES (R302 to R308). -/
inductive Exc where
  | adel (addr : Word)
  | ades (addr : Word)
  | ibe
  | dbe
  | ri
  | cpu
  | ovf
  deriving DecidableEq, Repr

/-- The cause an exception reports (R301). -/
def Exc.cause : Exc → Cause
  | .adel _ => .adel
  | .ades _ => .ades
  | .ibe => .ibe
  | .dbe => .dbe
  | .ri => .ri
  | .cpu => .cpu
  | .ovf => .ovf

/-- What an exception writes into BAR: the bad address for ADEL and ADES, nothing otherwise (R310, R38). -/
def Exc.badAddr : Exc → Option Word
  | .adel a => some a
  | .ades a => some a
  | .ibe | .dbe | .ri | .cpu | .ovf => none

/-- TRAP ENTRY, the one operation behind exceptions, system calls and interrupts (R310, R311, R321): EPC is
saved, EXL is set and the rest of SR kept, BAR is written when there is a bad address, XCODE is written and
the rest of CR kept, and pc goes to the GIET. It is the same whatever EXL and ERL hold (R315, D10). -/
def State.enterGiet (s : State) (c : Cause) (epc : Word) (badAddr : Option Word) : State :=
  { s with
    epc := epc
    sr := { s.sr with exl := true }
    bar := badAddr.getD s.bar
    cr := { s.cr with xcode := c.code }
    pc := Config.gietEntry }

/-- Exception entry: EPC is the address of the faulty instruction (R310). -/
def State.raise (s : State) (e : Exc) : State := s.enterGiet e.cause s.pc e.badAddr

/-- System-call entry: EPC is `pc + 4` and BAR is not written (R311). -/
def State.enterSystemCall (s : State) (c : Cause) : State := s.enterGiet c s.nextPc none

/-- Interrupt entry: EPC is the address of the instruction that would have executed next (R321, D8). -/
def State.enterInterrupt (s : State) : State := s.enterGiet .int s.pc none

/-- RETURN from the GIET or the boot-loader: EXL is cleared, the rest of SR kept, and pc is EPC
(R265, R335, C4). -/
def State.returnFromGiet (s : State) : State :=
  { s with sr := { s.sr with exl := false }, pc := s.epc }

/-! ## How an instruction completes -/

/-- `pc <- pc + 4` (R25). -/
def State.advance (s : State) : State := { s with pc := s.nextPc }

/-- `pc <- target` (R25). -/
def State.jumpTo (s : State) (target : Word) : State := { s with pc := target }

/-- An instruction that only writes a general register (R140, R142). -/
def State.writeNext (s : State) (rd : RegNum) (v : Word) : Result := .next (s.setReg rd v).advance

/-- ADD, ADDI and SUB: raise OVF and write nothing, or write the result (R142, R177, D39). -/
def State.writeUnlessOverflow (s : State) (rd : RegNum) (overflows : Bool) (v : Word) : Result :=
  if overflows then .next (s.raise .ovf) else s.writeNext rd v

/-- A multiply or divide: `hi` and `lo` are written, no general register is (R159). -/
def State.writeHiLo (s : State) (hi lo : Word) : Result := .next { s with hi := hi, lo := lo }.advance

/-- A conditional branch: to its target when it is taken, else to the next word (R208). -/
def State.branchIf (s : State) (taken : Bool) (imd16 : BitVec 16) : Result :=
  .next (s.jumpTo (if taken then s.branchTarget imd16 else s.nextPc))

/-- A branch that links: R31 is written whether or not it is taken, after the condition has been read
(R214, D31). -/
def State.branchLinkIf (s : State) (taken : Bool) (imd16 : BitVec 16) : Result :=
  .next ((s.setReg Config.linkReg s.nextPc).jumpTo (if taken then s.branchTarget imd16 else s.nextPc))

/-! ## Memory accesses (20_memory.md R60 to R72) -/

/-- The address exception of an access: ADEL for fetches and loads, ADES for stores (R302, R303). -/
def AccessKind.addressError : AccessKind → Word → Exc
  | .fetch, a => .adel a
  | .load, a => .adel a
  | .store, a => .ades a

/-- The exception of a bus error: IBE on a fetch, DBE on a data access (R304, R305). -/
def AccessKind.busError : AccessKind → Exc
  | .fetch => .ibe
  | .load => .dbe
  | .store => .dbe

/-- An address is a multiple of the access size (R67). -/
def Width.aligned (w : Width) (a : Word) : Bool := decide (a.toNat % w.bytes = 0)

/-- An address is in the system segment: bit 31 is 1 (R69). -/
def inSystemSegment (a : Word) : Bool := a.getLsbD 31

/-- The region says BERR for this access (R72). -/
def BerrRegion.hits (r : BerrRegion) (a : Word) (w : Width) (k : AccessKind) : Bool :=
  decide (r.first.toNat ≤ a.toNat) && decide (a.toNat ≤ r.last.toNat) && r.widths.contains w &&
    r.kinds.contains k

/-- `BusError(addr, n, kind)` (R72). -/
def State.busError (s : State) (a : Word) (w : Width) (k : AccessKind) : Bool :=
  s.berr.any fun r => r.hits a w k

/-- `CheckAddr(addr, n, kind)` passes: the address is aligned, and the system segment is touched only when
privileged (R67, R70). -/
def State.addressOk (s : State) (a : Word) (w : Width) : Bool :=
  w.aligned a && (!inSystemSegment a || s.privileged)

/-- The exception an access raises, if any: the address check first, then BERR (R71). -/
def State.accessExc (s : State) (a : Word) (w : Width) (k : AccessKind) : Option Exc :=
  if s.addressOk a w then
    if s.busError a w k then some k.busError else none
  else some (k.addressError a)

/-- A load of a value `v` that stands at `a`: the checks of R71, then the write of RT (R231). -/
def State.loadInto (s : State) (rt : RegNum) (a : Word) (w : Width) (v : Word) : Result :=
  match s.accessExc a w .load with
  | some e => .next (s.raise e)
  | none => s.writeNext rt v

/-- A store at `a` that makes memory `m`: the checks of R71, then the write of the bytes (R231). -/
def State.storeInto (s : State) (a : Word) (w : Width) (m : Memory) : Result :=
  match s.accessExc a w .store with
  | some e => .next (s.raise e)
  | none => .next { s with mem := m }.advance

/-! ## The CP0 registers by number (43_system.md R263, R264) -/

/-- CYCLECOUNT moves on by the cycles that have passed, a free number of them, modulo 2^32
(R40, D15; notes/assumptions/8.md). -/
def State.countCycles (s : State) : State :=
  { s with cyclecount := s.cyclecount + BitVec.ofNat 32 (Config.cyclesElapsed s.tick) }

/-- MFC0 of a CP0 number the machine does not define, under a setting of CP0_UNDEF (R41, D14). -/
def State.readUndefinedCp0 (s : State) (setting : Cp0Undef) (rt rd : RegNum) : Result :=
  match setting with
  | .refuse => .refused (.undefinedCp0 rd)
  | .anyValue => s.writeNext rt (Config.cp0Draw s.tick rd)
  | .ri => .next (s.raise .ri)

/-- MTC0 to a CP0 number the machine does not define, under a setting of CP0_UNDEF (R41, D14). -/
def State.writeUndefinedCp0 (s : State) (setting : Cp0Undef) (rd : RegNum) : Result :=
  match setting with
  | .refuse => .refused (.undefinedCp0 rd)
  | .anyValue => .next s.advance
  | .ri => .next (s.raise .ri)

/-- `x[rt] <- cp0[rd]` in supervisor mode (R263). -/
def State.readCp0 (s : State) (rt rd : RegNum) : Result :=
  match rd with
  | 8#5 => s.writeNext rt s.bar
  | 12#5 => s.writeNext rt s.sr.toWord
  | 13#5 => s.writeNext rt s.cr.toWord
  | 14#5 => s.writeNext rt s.epc
  | 15#5 => s.writeNext rt s.procid
  | 16#5 => s.countCycles.writeNext rt s.countCycles.cyclecount
  | n => s.readUndefinedCp0 s.settings.cp0Undef rt n

/-- `cp0[rd] <- v` in supervisor mode (R264): PROCID and CYCLECOUNT are read only and ignore the write
(R39, R40, D13). -/
def State.writeCp0 (s : State) (rd : RegNum) (v : Word) : Result :=
  match rd with
  | 8#5 => .next { s with bar := v }.advance
  | 12#5 => .next { s with sr := StatusReg.ofWord v }.advance
  | 13#5 => .next { s with cr := s.cr.writeSwi v }.advance
  | 14#5 => .next { s with epc := v }.advance
  | 15#5 => .next s.advance
  | 16#5 => .next s.advance
  | n => s.writeUndefinedCp0 s.settings.cp0Undef n

/-- A privileged instruction: it has its effect when privileged, else it raises CPU and reads and writes
nothing (R260, R308). -/
def State.ifPrivileged (s : State) (effect : Result) : Result :=
  if s.privileged then effect else .next (s.raise .cpu)

/-! ## The instruction boundary (00_scope.md R12) -/

/-- The pins at this boundary: the next sample, or none active after the last (R43). -/
def State.pinsNow (s : State) : PinSample := s.pins.headD ⟨0#6, false⟩

/-- The boundary passes: its sample is used up and the boundaries are counted. -/
def State.passBoundary (s : State) : State := { s with pins := s.pins.tail, tick := s.tick + 1 }

/-- The six lines are sampled into CR.IRQ, masked or not (R36, D9). -/
def State.sampleLines (s : State) (lines : BitVec 6) : State :=
  { s with cr := { s.cr with irq := lines } }

/-- The RESET action: SR and pc are written, CYCLECOUNT restarts, nothing else is touched (R360, R362;
notes/assumptions/15.md). -/
def State.applyReset (s : State) : State :=
  { s with sr := StatusReg.afterReset, pc := Config.bootEntry, cyclecount := 0#32 }

/-- An interrupt is taken: IE = 1, EXL = 0, ERL = 0, and a request whose mask bit is 1 (R320). -/
def State.interruptTaken (s : State) : Bool :=
  s.sr.ie && !s.sr.exl && !s.sr.erl && (s.cr.requests &&& s.sr.im) != 0#8

/-- What a boundary leads to. -/
inductive Boundary where
  /-- RESET or an interrupt ends the step in this state. -/
  | ended (t : State)
  /-- The instruction at pc runs, in this state. -/
  | runs (t : State)
  deriving DecidableEq, Repr

/-- The boundary before an instruction: RESET first, then the lines are sampled, then an interrupt is taken
if one is pending and enabled (R12 (1) to (3), R314, R361). -/
def State.boundary (s : State) : Boundary :=
  let t := s.passBoundary
  if s.pinsNow.reset then .ended t.applyReset
  else
    let u := t.sampleLines s.pinsNow.irqLines
    if u.interruptTaken then .ended u.enterInterrupt else .runs u

/-! ## Fetching (20_memory.md R65) and decoding -/

/-- What fetching and decoding at pc gives. -/
inductive Fetched where
  /-- An instruction to execute. -/
  | instr (i : Instr)
  /-- An exception: ADEL or IBE of the fetch, RI of the decoder (R314). -/
  | trap (e : Exc)
  /-- No meaning: a non-canonical word under DECODE_STRICT. -/
  | refuse (r : Refusal)
  deriving DecidableEq, Repr

/-- What the decoder's answer means to the processor: an empty cell raises RI (R115, R120, R307). -/
def Fetched.ofDecode (d : Except DecodeReject Instr) : Fetched :=
  match d with
  | .ok i => .instr i
  | .error (.emptyOpcode _) => .trap .ri
  | .error (.emptyFunction _) => .trap .ri
  | .error (.nonCanonical w) => .refuse (.nonCanonicalWord w)
  | .error .tooShort => .trap .ri

/-- The four bytes of the word at an address, the lowest address first. -/
def Memory.wordBytes (m : Memory) (a : Word) : List Byte :=
  [m.byteAt a, m.byteAt (a + 1#32), m.byteAt (a + 2#32), m.byteAt (a + 3#32)]

/-- `INS <- Fetch(pc)`, then decode it (R12 (4) and (5), R65): the checks of a fetch, then the word in
memory. -/
def State.fetch (s : State) : Fetched :=
  match s.accessExc s.pc .word .fetch with
  | some e => .trap e
  | none => Fetched.ofDecode ((decode s.settings.decodeStrict (s.mem.wordBytes s.pc)).map Prod.fst)

/-- The state with the word `w` stored at pc, where the next step fetches (notes/assumptions/12.md). -/
def State.placeWord (s : State) (w : Word) : State := { s with mem := s.mem.setWord s.pc w }

end Sys2Proof.Machine
end

