-- ==== Sys2Proof/Machine/AluImmediate.lean ====
section
/-! DEFINITION. Register-immediate instructions (40_arith_logic.md R167 to R174). The destination is RT. -/

namespace Sys2Proof.Machine

/-- ADDI: add the sign-extended immediate, trap on signed overflow (R167). -/
def execAddi (rs rt : RegNum) (imd16 : BitVec 16) (s : State) : Result :=
  s.writeUnlessOverflow rt (addOverflows (s.reg rs) (sext32 imd16)) (s.reg rs + sext32 imd16)

/-- ADDIU: add the sign-extended immediate modulo 2^32 (R168). -/
def execAddiu (rs rt : RegNum) (imd16 : BitVec 16) (s : State) : Result :=
  s.writeNext rt (s.reg rs + sext32 imd16)

/-- SLTI: signed comparison with the sign-extended immediate (R169). -/
def execSlti (rs rt : RegNum) (imd16 : BitVec 16) (s : State) : Result :=
  s.writeNext rt (boolWord (lessSigned (s.reg rs) (sext32 imd16)))

/-- SLTIU: unsigned comparison with the sign-extended immediate (R170). -/
def execSltiu (rs rt : RegNum) (imd16 : BitVec 16) (s : State) : Result :=
  s.writeNext rt (boolWord (lessUnsigned (s.reg rs) (sext32 imd16)))

/-- ANDI: and with the zero-extended immediate (R171). -/
def execAndi (rs rt : RegNum) (imd16 : BitVec 16) (s : State) : Result :=
  s.writeNext rt (s.reg rs &&& zext32 imd16)

/-- ORI: or with the zero-extended immediate (R172). -/
def execOri (rs rt : RegNum) (imd16 : BitVec 16) (s : State) : Result :=
  s.writeNext rt (s.reg rs ||| zext32 imd16)

/-- XORI: exclusive or with the zero-extended immediate (R173). -/
def execXori (rs rt : RegNum) (imd16 : BitVec 16) (s : State) : Result :=
  s.writeNext rt (s.reg rs ^^^ zext32 imd16)

/-- LUI: the immediate in the upper half, zeros below (R174). -/
def execLui (rt : RegNum) (imd16 : BitVec 16) (s : State) : Result :=
  s.writeNext rt (upper32 imd16)

end Sys2Proof.Machine
end

