-- ==== Sys2Proof/Machine/AluRegister.lean ====
section
/-! DEFINITION. Register-register arithmetic, logic and comparison (40_arith_logic.md R143 to R152). -/

namespace Sys2Proof.Machine

/-- ADD: add, trap on signed overflow (R143). -/
def execAdd (rs rt rd : RegNum) (s : State) : Result :=
  s.writeUnlessOverflow rd (addOverflows (s.reg rs) (s.reg rt)) (s.reg rs + s.reg rt)

/-- ADDU: add modulo 2^32 (R144). -/
def execAddu (rs rt rd : RegNum) (s : State) : Result :=
  s.writeNext rd (s.reg rs + s.reg rt)

/-- SUB: subtract rt from rs, trap on signed overflow (R145). -/
def execSub (rs rt rd : RegNum) (s : State) : Result :=
  s.writeUnlessOverflow rd (subOverflows (s.reg rs) (s.reg rt)) (s.reg rs - s.reg rt)

/-- SUBU: subtract rt from rs modulo 2^32 (R146). -/
def execSubu (rs rt rd : RegNum) (s : State) : Result :=
  s.writeNext rd (s.reg rs - s.reg rt)

/-- AND (R147). -/
def execAnd (rs rt rd : RegNum) (s : State) : Result :=
  s.writeNext rd (s.reg rs &&& s.reg rt)

/-- OR (R148). -/
def execOr (rs rt rd : RegNum) (s : State) : Result :=
  s.writeNext rd (s.reg rs ||| s.reg rt)

/-- XOR (R149). -/
def execXor (rs rt rd : RegNum) (s : State) : Result :=
  s.writeNext rd (s.reg rs ^^^ s.reg rt)

/-- NOR (R150). -/
def execNor (rs rt rd : RegNum) (s : State) : Result :=
  s.writeNext rd (~~~(s.reg rs ||| s.reg rt))

/-- SLT: 1 when rs is less than rt as signed numbers, else 0 (R151). -/
def execSlt (rs rt rd : RegNum) (s : State) : Result :=
  s.writeNext rd (boolWord (lessSigned (s.reg rs) (s.reg rt)))

/-- SLTU: 1 when rs is less than rt as unsigned numbers, else 0 (R152). -/
def execSltu (rs rt rd : RegNum) (s : State) : Result :=
  s.writeNext rd (boolWord (lessUnsigned (s.reg rs) (s.reg rt)))

end Sys2Proof.Machine
end

