-- ==== Sys2Proof/Machine/Branch.lean ====
section
/-! DEFINITION. Jumps and branches (41_branch_jump.md R204 to R215). There is no delay slot (R201) and no jump or
branch traps by itself: a bad target is found at the next fetch (R203). -/

namespace Sys2Proof.Machine

/-- J: jump in the region of the next word (R204). -/
def execJ (imd26 : BitVec 26) (s : State) : Result :=
  .next (s.jumpTo (s.jumpTarget imd26))

/-- JAL: jump and save the return address in R31 (R205). -/
def execJal (imd26 : BitVec 26) (s : State) : Result :=
  .next ((s.setReg Config.linkReg s.nextPc).jumpTo (s.jumpTarget imd26))

/-- JR: jump to the address in a register (R206). -/
def execJr (rs : RegNum) (s : State) : Result :=
  .next (s.jumpTo (s.reg rs))

/-- JALR: jump to the address rs held before, and save the return address in rd (R207, C8). -/
def execJalr (rs rd : RegNum) (s : State) : Result :=
  .next ((s.setReg rd s.nextPc).jumpTo (s.reg rs))

/-- BEQ: branch if equal (R208). -/
def execBeq (rs rt : RegNum) (imd16 : BitVec 16) (s : State) : Result :=
  s.branchIf (s.reg rs == s.reg rt) imd16

/-- BNE: branch if not equal (R209). -/
def execBne (rs rt : RegNum) (imd16 : BitVec 16) (s : State) : Result :=
  s.branchIf (s.reg rs != s.reg rt) imd16

/-- BLEZ: branch if less than or equal to zero (R210). -/
def execBlez (rs : RegNum) (imd16 : BitVec 16) (s : State) : Result :=
  s.branchIf (isNotPositive (s.reg rs)) imd16

/-- BGTZ: branch if greater than zero (R211). -/
def execBgtz (rs : RegNum) (imd16 : BitVec 16) (s : State) : Result :=
  s.branchIf (!isNotPositive (s.reg rs)) imd16

/-- BLTZ: branch if less than zero (R212). -/
def execBltz (rs : RegNum) (imd16 : BitVec 16) (s : State) : Result :=
  s.branchIf (isNegative (s.reg rs)) imd16

/-- BGEZ: branch if greater than or equal to zero (R213). -/
def execBgez (rs : RegNum) (imd16 : BitVec 16) (s : State) : Result :=
  s.branchIf (!isNegative (s.reg rs)) imd16

/-- BLTZAL: branch if less than zero; R31 is written in any case (R214). -/
def execBltzal (rs : RegNum) (imd16 : BitVec 16) (s : State) : Result :=
  s.branchLinkIf (isNegative (s.reg rs)) imd16

/-- BGEZAL: branch if greater than or equal to zero; R31 is written in any case (R215). -/
def execBgezal (rs : RegNum) (imd16 : BitVec 16) (s : State) : Result :=
  s.branchLinkIf (!isNegative (s.reg rs)) imd16

end Sys2Proof.Machine
end

