-- ==== Sys2Proof/Machine/LoadStore.lean ====
section
/-! DEFINITION. Loads and stores (42_load_store.md R231 to R239). The address is `x[rs] + sext_32(IMD16)` and the
base register is never changed (R240). -/

namespace Sys2Proof.Machine

/-- LB: load a byte, sign-extended (R232). -/
def execLb (rs rt : RegNum) (imd16 : BitVec 16) (s : State) : Result :=
  let a := s.effAddr rs imd16
  s.loadInto rt a .byte ((s.mem.byteAt a).signExtend 32)

/-- LBU: load a byte, zero-extended (R233). -/
def execLbu (rs rt : RegNum) (imd16 : BitVec 16) (s : State) : Result :=
  let a := s.effAddr rs imd16
  s.loadInto rt a .byte ((s.mem.byteAt a).zeroExtend 32)

/-- LH: load a half-word, sign-extended (R234). -/
def execLh (rs rt : RegNum) (imd16 : BitVec 16) (s : State) : Result :=
  let a := s.effAddr rs imd16
  s.loadInto rt a .half ((s.mem.halfAt a).signExtend 32)

/-- LHU: load a half-word, zero-extended (R235). -/
def execLhu (rs rt : RegNum) (imd16 : BitVec 16) (s : State) : Result :=
  let a := s.effAddr rs imd16
  s.loadInto rt a .half ((s.mem.halfAt a).zeroExtend 32)

/-- LW: load a word (R236). -/
def execLw (rs rt : RegNum) (imd16 : BitVec 16) (s : State) : Result :=
  let a := s.effAddr rs imd16
  s.loadInto rt a .word (s.mem.wordAt a)

/-- SB: store the low byte of rt (R237). -/
def execSb (rs rt : RegNum) (imd16 : BitVec 16) (s : State) : Result :=
  let a := s.effAddr rs imd16
  s.storeInto a .byte (s.mem.setByte a ((s.reg rt).extractLsb' 0 8))

/-- SH: store the low half-word of rt (R238). -/
def execSh (rs rt : RegNum) (imd16 : BitVec 16) (s : State) : Result :=
  let a := s.effAddr rs imd16
  s.storeInto a .half (s.mem.setHalf a ((s.reg rt).extractLsb' 0 16))

/-- SW: store rt (R239). -/
def execSw (rs rt : RegNum) (imd16 : BitVec 16) (s : State) : Result :=
  let a := s.effAddr rs imd16
  s.storeInto a .word (s.mem.setWord a (s.reg rt))

end Sys2Proof.Machine
end

