-- ==== Sys2Proof/Machine/MulDiv.lean ====
section
/-! DEFINITION. Multiply, divide and the HI and LO moves (40_arith_logic.md R159 to R166, R178). Results are
computed as integers and narrowed at the end. -/

namespace Sys2Proof.Machine

/-- Bits 63:32 of a product, for HI (R159). -/
def highWord (p : BitVec 64) : Word := p.extractLsb' 32 32

/-- Bits 31:0 of a product, for LO (R159). -/
def lowWord (p : BitVec 64) : Word := p.extractLsb' 0 32

/-- The product of two signed words, on 64 bits (R159). -/
def signedProduct (a b : Word) : BitVec 64 := BitVec.ofInt 64 (a.toInt * b.toInt)

/-- The product of two unsigned words, on 64 bits (R160). -/
def unsignedProduct (a b : Word) : BitVec 64 := BitVec.ofNat 64 (a.toNat * b.toNat)

/-- A signed division has a result: the divisor is not zero and the quotient is not +2^31 (R161, R178). -/
def divDefined (a b : Word) : Bool :=
  b != 0#32 && !(a == 0x80000000#32 && b == 0xFFFFFFFF#32)

/-- The signed quotient, truncated toward zero (R161). -/
def signedQuotient (a b : Word) : Int := a.toInt.tdiv b.toInt

/-- HI and LO after DIV: remainder and quotient, or a free value where the spec fixes none (R161, R178). -/
def divResult (a b : Word) : Word × Word :=
  if divDefined a b then
    (BitVec.ofInt 32 (a.toInt - signedQuotient a b * b.toInt), BitVec.ofInt 32 (signedQuotient a b))
  else Config.divDraw .div a b

/-- HI and LO after DIVU: remainder and quotient, or a free value for a zero divisor (R162, R178). -/
def divuResult (a b : Word) : Word × Word :=
  if b != 0#32 then (BitVec.ofNat 32 (a.toNat % b.toNat), BitVec.ofNat 32 (a.toNat / b.toNat))
  else Config.divDraw .divu a b

/-- MULT: signed multiply (R159). -/
def execMult (rs rt : RegNum) (s : State) : Result :=
  let p := signedProduct (s.reg rs) (s.reg rt)
  s.writeHiLo (highWord p) (lowWord p)

/-- MULTU: unsigned multiply (R160). -/
def execMultu (rs rt : RegNum) (s : State) : Result :=
  let p := unsignedProduct (s.reg rs) (s.reg rt)
  s.writeHiLo (highWord p) (lowWord p)

/-- DIV: signed divide, quotient to LO and remainder to HI; never traps (R161). -/
def execDiv (rs rt : RegNum) (s : State) : Result :=
  let r := divResult (s.reg rs) (s.reg rt)
  s.writeHiLo r.1 r.2

/-- DIVU: unsigned divide, quotient to LO and remainder to HI; never traps (R162). -/
def execDivu (rs rt : RegNum) (s : State) : Result :=
  let r := divuResult (s.reg rs) (s.reg rt)
  s.writeHiLo r.1 r.2

/-- MFHI: general register rd from HI (R163). -/
def execMfhi (rd : RegNum) (s : State) : Result :=
  s.writeNext rd s.hi

/-- MTHI: HI from general register rs; LO is unchanged (R164). -/
def execMthi (rs : RegNum) (s : State) : Result :=
  s.writeHiLo (s.reg rs) s.lo

/-- MFLO: general register rd from LO (R165). -/
def execMflo (rd : RegNum) (s : State) : Result :=
  s.writeNext rd s.lo

/-- MTLO: LO from general register rs; HI is unchanged (R166). -/
def execMtlo (rs : RegNum) (s : State) : Result :=
  s.writeHiLo s.hi (s.reg rs)

end Sys2Proof.Machine
end

