-- ==== Sys2Proof/Machine/Shift.lean ====
section
/-! DEFINITION. Shifts of RT, by the SH field or by the low five bits of RS (40_arith_logic.md R153 to R158). -/

namespace Sys2Proof.Machine

/-- SLL: shift left, zeros enter (R153). -/
def execSll (rt rd : RegNum) (sh : BitVec 5) (s : State) : Result :=
  s.writeNext rd (s.reg rt <<< sh.toNat)

/-- SRL: shift right, zeros enter (R154). -/
def execSrl (rt rd : RegNum) (sh : BitVec 5) (s : State) : Result :=
  s.writeNext rd (s.reg rt >>> sh.toNat)

/-- SRA: shift right, copies of bit 31 enter (R155). -/
def execSra (rt rd : RegNum) (sh : BitVec 5) (s : State) : Result :=
  s.writeNext rd ((s.reg rt).sshiftRight sh.toNat)

/-- SLLV: shift left by a register (R156). -/
def execSllv (rs rt rd : RegNum) (s : State) : Result :=
  s.writeNext rd (s.reg rt <<< (lowFive (s.reg rs)).toNat)

/-- SRLV: shift right by a register, zeros enter (R157). -/
def execSrlv (rs rt rd : RegNum) (s : State) : Result :=
  s.writeNext rd (s.reg rt >>> (lowFive (s.reg rs)).toNat)

/-- SRAV: shift right by a register, copies of bit 31 enter (R158). -/
def execSrav (rs rt rd : RegNum) (s : State) : Result :=
  s.writeNext rd ((s.reg rt).sshiftRight (lowFive (s.reg rs)).toNat)

end Sys2Proof.Machine
end

