-- ==== Sys2Proof/Machine/System.lean ====
section
/-! DEFINITION. System instructions (43_system.md R260 to R265). SYSCALL and BREAK run in both modes; MFC0, MTC0 and
ERET are privileged. -/

namespace Sys2Proof.Machine

/-- SYSCALL: system call, EPC = pc + 4 (R261). -/
def execSyscall (s : State) : Result :=
  .next (s.enterSystemCall .sys)

/-- BREAK: breakpoint, EPC = pc + 4 (R262). -/
def execBreak (s : State) : Result :=
  .next (s.enterSystemCall .bp)

/-- MFC0: general register rt from CP0 register rd (R263). -/
def execMfc0 (rt rd : RegNum) (s : State) : Result :=
  s.ifPrivileged (s.readCp0 rt rd)

/-- MTC0: CP0 register rd from general register rt (R264). -/
def execMtc0 (rt rd : RegNum) (s : State) : Result :=
  s.ifPrivileged (s.writeCp0 rd (s.reg rt))

/-- ERET: return from the GIET or the boot-loader (R265, C1). -/
def execEret (s : State) : Result :=
  s.ifPrivileged (.next s.returnFromGiet)

end Sys2Proof.Machine
end

