-- ==== Sys2Proof/Machine/Dispatch.lean ====
section
/-! DEFINITION. One arm per instruction: the meaning it has. -/

namespace Sys2Proof.Machine

def exec (i : Instr) (s : State) : Host.Outcome State Fault Refusal :=
  match i with
  | .sll rt rd sh => Sys2Proof.Machine.execSll rt rd sh s
  | .srl rt rd sh => Sys2Proof.Machine.execSrl rt rd sh s
  | .sra rt rd sh => Sys2Proof.Machine.execSra rt rd sh s
  | .sllv rs rt rd => Sys2Proof.Machine.execSllv rs rt rd s
  | .srlv rs rt rd => Sys2Proof.Machine.execSrlv rs rt rd s
  | .srav rs rt rd => Sys2Proof.Machine.execSrav rs rt rd s
  | .jr rs => Sys2Proof.Machine.execJr rs s
  | .jalr rs rd => Sys2Proof.Machine.execJalr rs rd s
  | .syscall => Sys2Proof.Machine.execSyscall s
  | .breakpoint => Sys2Proof.Machine.execBreak s
  | .mfhi rd => Sys2Proof.Machine.execMfhi rd s
  | .mthi rs => Sys2Proof.Machine.execMthi rs s
  | .mflo rd => Sys2Proof.Machine.execMflo rd s
  | .mtlo rs => Sys2Proof.Machine.execMtlo rs s
  | .mult rs rt => Sys2Proof.Machine.execMult rs rt s
  | .multu rs rt => Sys2Proof.Machine.execMultu rs rt s
  | .div rs rt => Sys2Proof.Machine.execDiv rs rt s
  | .divu rs rt => Sys2Proof.Machine.execDivu rs rt s
  | .add rs rt rd => Sys2Proof.Machine.execAdd rs rt rd s
  | .addu rs rt rd => Sys2Proof.Machine.execAddu rs rt rd s
  | .sub rs rt rd => Sys2Proof.Machine.execSub rs rt rd s
  | .subu rs rt rd => Sys2Proof.Machine.execSubu rs rt rd s
  | .and rs rt rd => Sys2Proof.Machine.execAnd rs rt rd s
  | .or rs rt rd => Sys2Proof.Machine.execOr rs rt rd s
  | .xor rs rt rd => Sys2Proof.Machine.execXor rs rt rd s
  | .nor rs rt rd => Sys2Proof.Machine.execNor rs rt rd s
  | .slt rs rt rd => Sys2Proof.Machine.execSlt rs rt rd s
  | .sltu rs rt rd => Sys2Proof.Machine.execSltu rs rt rd s
  | .bltz rs imd16 => Sys2Proof.Machine.execBltz rs imd16 s
  | .bgez rs imd16 => Sys2Proof.Machine.execBgez rs imd16 s
  | .bltzal rs imd16 => Sys2Proof.Machine.execBltzal rs imd16 s
  | .bgezal rs imd16 => Sys2Proof.Machine.execBgezal rs imd16 s
  | .j imd26 => Sys2Proof.Machine.execJ imd26 s
  | .jal imd26 => Sys2Proof.Machine.execJal imd26 s
  | .beq rs rt imd16 => Sys2Proof.Machine.execBeq rs rt imd16 s
  | .bne rs rt imd16 => Sys2Proof.Machine.execBne rs rt imd16 s
  | .blez rs imd16 => Sys2Proof.Machine.execBlez rs imd16 s
  | .bgtz rs imd16 => Sys2Proof.Machine.execBgtz rs imd16 s
  | .addi rs rt imd16 => Sys2Proof.Machine.execAddi rs rt imd16 s
  | .addiu rs rt imd16 => Sys2Proof.Machine.execAddiu rs rt imd16 s
  | .slti rs rt imd16 => Sys2Proof.Machine.execSlti rs rt imd16 s
  | .sltiu rs rt imd16 => Sys2Proof.Machine.execSltiu rs rt imd16 s
  | .andi rs rt imd16 => Sys2Proof.Machine.execAndi rs rt imd16 s
  | .ori rs rt imd16 => Sys2Proof.Machine.execOri rs rt imd16 s
  | .xori rs rt imd16 => Sys2Proof.Machine.execXori rs rt imd16 s
  | .lui rt imd16 => Sys2Proof.Machine.execLui rt imd16 s
  | .mfc0 rt rd => Sys2Proof.Machine.execMfc0 rt rd s
  | .mtc0 rt rd => Sys2Proof.Machine.execMtc0 rt rd s
  | .eret => Sys2Proof.Machine.execEret s
  | .lb rs rt imd16 => Sys2Proof.Machine.execLb rs rt imd16 s
  | .lh rs rt imd16 => Sys2Proof.Machine.execLh rs rt imd16 s
  | .lw rs rt imd16 => Sys2Proof.Machine.execLw rs rt imd16 s
  | .lbu rs rt imd16 => Sys2Proof.Machine.execLbu rs rt imd16 s
  | .lhu rs rt imd16 => Sys2Proof.Machine.execLhu rs rt imd16 s
  | .sb rs rt imd16 => Sys2Proof.Machine.execSb rs rt imd16 s
  | .sh rs rt imd16 => Sys2Proof.Machine.execSh rs rt imd16 s
  | .sw rs rt imd16 => Sys2Proof.Machine.execSw rs rt imd16 s

end Sys2Proof.Machine
end

