-- ==== Sys2Proof/Machine/Step.lean ====
section
/-! DEFINITION. One step of the processor (00_scope.md R12): the boundary, then fetch, decode and execute.
What it does stands in Machine/Ops.lean and in the meanings. -/

namespace Sys2Proof.Machine

/-- One step (R12). -/
def step (s : State) : Host.Outcome State Fault Refusal :=
  match s.boundary with
  | .ended t => .next t
  | .runs t =>
    match t.fetch with
    | .instr i => exec i t
    | .trap e => .next (t.raise e)
    | .refuse r => .refused r

/-- `s` with an instruction, whose bits are `w` as spec/opcode_table.json numbers them, stored where the
next step fetches: at pc (notes/assumptions/12.md). -/
def State.withFetchWord (s : State) (nbits w : Nat) : State := s.placeWord (tableWord nbits w)

end Sys2Proof.Machine
end

