-- ==== Sys2Proof/Machine/Run.lean ====
section
/-! DEFINITION. A launch: the parameters it supplies (00_scope.md R7), the machine they make at power-on, and a
run of it, up to the states the parameter `HALT` names (D32). -/

namespace Sys2Proof.Machine

/-- The parameters of R7 that a state holds. `CycleDraw` is a free value of Config, `HALT` an argument of
`runUntil`, and `MEM_MODEL` is for more than one processor (notes/assumptions/18.md). -/
structure Launch where
  /-- `PROCID` (D16). -/
  procid : Word
  /-- `InitialMemory`, in the canonical form (D24). -/
  initialMemory : Memory
  /-- `CP0_UNDEF` and `DECODE_STRICT` (D14, D6). -/
  settings : Settings
  /-- `BusError(addr, n, kind)` (D24). -/
  busError : List BerrRegion
  /-- `IrqLines(t)` and `Reset(t)` (D9, D36, D42). -/
  pins : List PinSample
  deriving DecidableEq, Repr

/-- The machine right after power-on RESET under the parameters of a launch (R45). -/
def Launch.powerOn (l : Launch) : State :=
  { State.reset with
    procid := l.procid
    mem := l.initialMemory
    settings := l.settings
    berr := l.busError
    pins := l.pins }

/-- How a run of at most some number of steps ends. -/
inductive RunEnd where
  /-- `HALT` holds in this state: the run is over. -/
  | halted (t : State)
  /-- All the steps were taken, and `HALT` holds neither in this state nor in one before it. -/
  | going (t : State)
  /-- A step answered a fault. -/
  | fault (f : Fault)
  /-- A step was refused. -/
  | refused (r : Refusal)
  deriving DecidableEq, Repr

/-- Exactly `n` steps, whatever `HALT` says. -/
def stepTimes : Nat → State → Result
  | 0, s => .next s
  | n + 1, s =>
    match step s with
    | .next t => stepTimes n t
    | .fault f => .fault f
    | .refused r => .refused r

/-- Run for at most `n` steps, until `HALT` holds. `HALT` is a predicate on states chosen by the launch, and
the architecture itself never stops (R266, D32). -/
def runUntil (halt : State → Bool) : Nat → State → RunEnd
  | 0, s => if halt s then .halted s else .going s
  | n + 1, s =>
    if halt s then .halted s
    else
      match step s with
      | .next t => runUntil halt n t
      | .fault f => .fault f
      | .refused r => .refused r

end Sys2Proof.Machine
end

