-- ==== Sys2Proof/Safety.lean ====
section
/-! DEFINITION. The terms in which claims speak of the machine: completing, what a step leaves unchanged,
the modes, and the invariants. -/

namespace Sys2Proof.Machine

/-! ## Completing -/

/-- An answer is a next state (and which one). -/
def CompletesWith (o : Result) (post : State → Prop) : Prop := ∃ t, o = .next t ∧ post t

/-! ## What stays -/

/-- Every general register reads as before but for `rd`, which reads as `v`; R0 reads as zero
whatever `rd` is (R21). -/
def RegsUpdated (s t : State) (rd : RegNum) (v : Word) : Prop :=
  ∀ i, t.reg i = if i = rd ∧ rd ≠ 0#5 then v else s.reg i

/-- Every general register reads as before. -/
def RegsKept (s t : State) : Prop := ∀ i, t.reg i = s.reg i

/-- HI and LO are unchanged. -/
def HiLoKept (s t : State) : Prop := t.hi = s.hi ∧ t.lo = s.lo

/-- Every byte of memory reads as before. -/
def MemKept (s t : State) : Prop := ∀ a : Word, t.mem.byteAt a = s.mem.byteAt a

/-- Every byte of memory outside an access of width `w` at `a` reads as before. -/
def MemKeptOutside (s t : State) (a : Word) (w : Width) : Prop :=
  ∀ b : Word, w.covers a b = false → t.mem.byteAt b = s.mem.byteAt b

/-- The CP0 registers that an exception or a system instruction may write are unchanged: SR, CR, EPC,
BAR, and CYCLECOUNT as the model holds it, the last count drawn (notes/assumptions/8.md). -/
def Cp0Kept (s t : State) : Prop :=
  t.sr = s.sr ∧ t.cr = s.cr ∧ t.epc = s.epc ∧ t.bar = s.bar ∧ t.cyclecount = s.cyclecount

/-- What no instruction writes: the hardwired PROCID (R39), the settings (R7), and the environment's data. -/
def FixedKept (s t : State) : Prop :=
  t.procid = s.procid ∧ t.settings = s.settings ∧ t.berr = s.berr ∧ t.pins = s.pins ∧ t.tick = s.tick

/-- The frame of an instruction that only writes the general register `rd`, with the value `v`, and goes
to `target`. -/
def OnlyWritesReg (s : State) (rd : RegNum) (v target : Word) (t : State) : Prop :=
  t.pc = target ∧ RegsUpdated s t rd v ∧ HiLoKept s t ∧ Cp0Kept s t ∧ MemKept s t ∧ FixedKept s t

/-- As `OnlyWritesReg`, with the value given bit by bit, and going to the next word. -/
def OnlyWritesBits (s : State) (rd : RegNum) (bit : Nat → Bool) (t : State) : Prop :=
  ∃ v : Word, (∀ k, k < 32 → v.getLsbD k = bit k) ∧ OnlyWritesReg s rd v (s.pc + 4#32) t

/-- The frame of an instruction that only sets the pc. -/
def OnlySetsPc (s : State) (target : Word) (t : State) : Prop :=
  t.pc = target ∧ RegsKept s t ∧ HiLoKept s t ∧ Cp0Kept s t ∧ MemKept s t ∧ FixedKept s t

/-- The frame of an instruction that only writes HI and LO. -/
def OnlyWritesHiLo (s : State) (hi lo : Word) (t : State) : Prop :=
  t.pc = s.pc + 4#32 ∧ t.hi = hi ∧ t.lo = lo ∧ RegsKept s t ∧ Cp0Kept s t ∧ MemKept s t ∧ FixedKept s t

/-- The frame of a store of width `w` at `a`: the stored bytes are said apart. -/
def OnlyWritesMem (s : State) (a : Word) (w : Width) (t : State) : Prop :=
  t.pc = s.pc + 4#32 ∧ RegsKept s t ∧ HiLoKept s t ∧ Cp0Kept s t ∧ MemKeptOutside s t a w ∧ FixedKept s t

/-- What a trap leaves (R310, R311, R321): EPC, EXL, XCODE and pc are written, BAR only when there is a bad
address, and nothing else changes: neither the other bits of SR nor the other fields of CR, nor a general
register, HI, LO or memory. -/
def TrapsTo (s : State) (code : BitVec 4) (epc : Word) (badAddr : Option Word) (t : State) : Prop :=
  t.epc = epc ∧ t.pc = 0x80000180#32 ∧
    t.sr.exl = true ∧ t.sr.ie = s.sr.ie ∧ t.sr.erl = s.sr.erl ∧ t.sr.um = s.sr.um ∧ t.sr.im = s.sr.im ∧
    t.cr.xcode = code ∧ t.cr.swi = s.cr.swi ∧ t.cr.irq = s.cr.irq ∧
    t.bar = (match badAddr with | some a => a | none => s.bar) ∧
    t.cyclecount = s.cyclecount ∧ RegsKept s t ∧ HiLoKept s t ∧ MemKept s t ∧ FixedKept s t

/-! ## Modes, accesses and boundaries -/

/-- User mode: UM = 1, EXL = 0 and ERL = 0 (R330). -/
def State.userMode (s : State) : Bool := s.sr.um && !s.sr.exl && !s.sr.erl

/-- The address of an access is legal: aligned, and outside the system segment in user mode (R67, R70). -/
abbrev AddressLegal (s : State) (a : Word) (w : Width) : Prop :=
  a.toNat % w.bytes = 0 ∧ (0x80000000 ≤ a.toNat → s.userMode = false)

/-- An access is performed: its address is legal and the memory system does not answer BERR (R71). -/
abbrev AccessPermitted (s : State) (a : Word) (w : Width) (k : AccessKind) : Prop :=
  AddressLegal s a w ∧ s.busError a w k = false

/-- The state in which the instruction at pc runs: the boundary has passed and CR.IRQ holds the lines
(R12 (2)). -/
def State.sampled (s : State) : State := s.passBoundary.sampleLines s.pinsNow.irqLines

/-- The boundary lets the instruction at pc run: no RESET and no interrupt (R12 (1) and (3)). -/
def State.undisturbed (s : State) : Bool := !s.pinsNow.reset && !s.sampled.interruptTaken

/-! ## Numbers and words -/

/-- An integer that a 32-bit two's-complement number can represent (R177). -/
abbrev FitsSigned (n : Int) : Prop := -2147483648 ≤ n ∧ n ≤ 2147483647

/-- A number lies in one of some ranges, both ends included. -/
def inRanges (n : Nat) (l : List (Nat × Nat)) : Bool := l.any fun r => decide (r.1 ≤ n) && decide (n ≤ r.2)

/-- The illegal words, as R120 lists them: the 39 empty cells of OPCOD, and the 36 empty cells of FUNC when
OPCOD is SPECIAL. -/
def illegalWord (w : Word) : Bool :=
  inRanges (opcodOf w).toNat
      [(0b010001, 0b011111), (0b100010, 0b100010), (0b100110, 0b100111), (0b101010, 0b101010),
        (0b101100, 0b101111), (0b110000, 0b111111)] ||
    (opcodOf w == 0#6 &&
      inRanges (funcOf w).toNat
        [(0b000001, 0b000001), (0b000101, 0b000101), (0b001010, 0b001011), (0b001110, 0b001111),
          (0b010100, 0b010111), (0b011100, 0b011111), (0b101000, 0b101001), (0b101100, 0b101111),
          (0b110000, 0b111111)])

/-! ## Runs -/

/-- `t` is reached from `s` by some number of steps. -/
inductive Reaches : State → State → Prop where
  | refl (s : State) : Reaches s s
  | next {s t u : State} : Reaches s t → step t = .next u → Reaches s u

/-- `HALT` holds of no state reached from `s` in fewer than `k` steps. -/
def NotHaltedBefore (halt : State → Bool) (k : Nat) (s : State) : Prop :=
  ∀ (j : Nat) (u : State), j < k → stepTimes j s = .next u → halt u = false

/-! ## Invariants -/

/-- The XCODE values in use (R301): the six others are marked unused and hardware never writes them. -/
def xcodeInUse (c : BitVec 4) : Bool :=
  c == 0#4 || (decide (4 ≤ c.toNat) && decide (c.toNat ≤ 12))

/-- The invariant of every step: memory is in its canonical form and XCODE is a value in use. -/
def State.inv (s : State) : Bool := s.mem.wf && xcodeInUse s.cr.xcode

/-! ## Two states that a user program cannot tell apart -/

/-- Two states agree on everything but the bytes of the system segment (R69, R70). -/
def SameToUser (s t : State) : Prop :=
  s.gpr = t.gpr ∧ s.pc = t.pc ∧ s.hi = t.hi ∧ s.lo = t.lo ∧ s.sr = t.sr ∧ s.cr = t.cr ∧ s.epc = t.epc ∧
    s.bar = t.bar ∧ s.procid = t.procid ∧ s.cyclecount = t.cyclecount ∧ s.settings = t.settings ∧
    s.berr = t.berr ∧ s.pins = t.pins ∧ s.tick = t.tick ∧
    ∀ a : Word, inSystemSegment a = false → s.mem.byteAt a = t.mem.byteAt a

end Sys2Proof.Machine
end

