-- ==== Sys2Proof/Certificates/Slice0/Obligations.lean ====
section
/-! DEFINITION. The statements for the provers. "Log n" is notes/assumptions/n.md. A statement whose rules carry
the spec's marks [decision], [derived] or [from general knowledge] is said to be derived in OBLIGATIONS.json.
Wherever a frame keeps CYCLECOUNT it keeps the last count drawn, in the model's form of that register (log 8). -/

open Sys2Proof Sys2Proof.Machine

/-! ## Encoding and decoding (30_encoding.md) -/

/-- Six words the spec writes out, from four files, decode to the instructions it names. -/
def Obligations.SpecWordsDecode : Prop :=
  decodeTableWord 32 0x00221820 = some (.add 1#5 2#5 3#5) ∧
    decodeTableWord 32 0x1422FFFE = some (.bne 1#5 2#5 0xFFFE#16) ∧
    decodeTableWord 32 0x0C100008 = some (.jal 0x0100008#26) ∧
    decodeTableWord 32 0x8C22FFFC = some (.lw 1#5 2#5 0xFFFC#16) ∧
    decodeTableWord 32 0x40826000 = some (.mtc0 2#5 12#5) ∧
    decodeTableWord 32 0x42000018 = some .eret

/-- Decoding the canonical word of any instruction gives it back, under both settings of DECODE_STRICT and
from bytes, whatever follows them (R100, R115, R116). No well-formedness is needed: every operand has
the width of its field. -/
def Obligations.EncodeThenDecodeGivesBack : Prop :=
  ∀ (i : Instr) (strict : Bool) (rest : List Byte),
    decodeWith strict (encode i) = .ok i ∧ decode strict (bytesOfWord (encode i) ++ rest) = .ok (i, rest)

/-- Under DECODE_STRICT a word is an instruction exactly when it is its canonical encoding; and a machine with
that setting refuses a step at any other word that literal decoding reads (R116, D6). -/
def Obligations.StrictDecodingIsCanonical : Prop :=
  (∀ (w : Word) (i : Instr), decodeWith true w = .ok i ↔ w = encode i) ∧
    ∀ (s : State) (i : Instr),
      s.settings.decodeStrict = true → s.undisturbed = true → AccessPermitted s s.pc .word .fetch →
      decodeWith false (s.mem.wordAt s.pc) = .ok i → s.mem.wordAt s.pc ≠ encode i →
      step s = .refused (.nonCanonicalWord (s.mem.wordAt s.pc))

/-- Literal decoding reads the selecting bits and the operand fields and ignores every other bit: a word
decodes to `i` exactly when it agrees with the canonical word of `i` on those bits (R115, R116). -/
def Obligations.DecodingIgnoresExactlyUnusedBits : Prop :=
  ∀ (w : Word) (i : Instr),
    decodeWith false w = .ok i ↔
      w &&& (i.row.1 ||| i.operandBits) = encode i &&& (i.row.1 ||| i.operandBits)

/-- The `mask` and `match` pairs of the opcode table encode the decoding algorithm: a word that has the
selecting bits of the row of `i` decodes to an instruction of that row, and to no other row's (R115). -/
def Obligations.RowBitsSelectTheInstruction : Prop :=
  (∀ (w : Word) (i : Instr), decodeWith false w = .ok i → w &&& i.row.1 = i.row.2) ∧
    ∀ (w : Word) (i : Instr), w &&& i.row.1 = i.row.2 →
      ∃ j, decodeWith false w = .ok j ∧ j.row = i.row

/-- The words that are no instruction are exactly those R120 lists. -/
def Obligations.IllegalWordsAreTheEmptyCells : Prop :=
  ∀ w : Word, (∃ r, decodeWith false w = .error r) ↔ illegalWord w = true

/-! ## Steps (00_scope.md R12) -/

/-- A step runs the decoded instruction: when no RESET and no interrupt disturbs the boundary, the fetch is
permitted and the four bytes at pc decode to `i` under the machine's DECODE_STRICT, the step is `i`
executed in the state the boundary left.
That state is the old one with the six lines copied into CR.IRQ; the model's own lists and counter move
on by one boundary, and nothing else changes (R12, R36; D8, D9). -/
def Obligations.StepRunsTheDecodedInstruction : Prop :=
  (∀ (s : State) (i : Instr),
    s.undisturbed = true → AccessPermitted s s.pc .word .fetch →
    decode s.settings.decodeStrict (s.mem.wordBytes s.pc) = .ok (i, []) → step s = exec i s.sampled) ∧
  ∀ s : State, s.sampled =
    { s with
      cr := { s.cr with irq := s.pinsNow.irqLines }
      pins := s.pins.tail
      tick := s.tick + 1 }

/-- RESET: SR becomes 0x0004, pc the boot-loader's address, the processor is privileged with interrupts masked,
and EPC, BAR, CR.XCODE, CR.SWI, the general registers, HI, LO and memory, which is the list of R360, are not
touched; whatever the state. (CYCLECOUNT restarts there: ResetState.) -/
def Obligations.ResetAction : Prop :=
  ∀ s : State, s.pinsNow.reset = true →
    CompletesWith (step s) fun t =>
      t.sr.toWord = 0x00000004#32 ∧ t.sr.erl = true ∧ t.sr.ie = false ∧ t.sr.exl = false ∧
        t.sr.um = false ∧ t.sr.im = 0x00#8 ∧ t.privileged = true ∧ t.interruptTaken = false ∧
        t.pc = 0xBFC00000#32 ∧ t.epc = s.epc ∧ t.bar = s.bar ∧
        t.cr.xcode = s.cr.xcode ∧ t.cr.swi = s.cr.swi ∧ RegsKept s t ∧ HiLoKept s t ∧ MemKept s t

/-- An interrupt is taken at a boundary if and only if IE = 1, EXL = 0, ERL = 0 and some request has its mask
bit at 1: hardware line `i` has mask bit `i + 2`, software request `j` has mask bit `j`. Otherwise the
instruction at pc runs (R320). -/
def Obligations.InterruptTakenExactlyWhenEnabled : Prop :=
  ∀ s : State, s.pinsNow.reset = false →
    let taken := s.sr.ie = true ∧ s.sr.exl = false ∧ s.sr.erl = false ∧
      ((∃ i, i < 6 ∧ s.sampled.cr.irq.getLsbD i = true ∧ s.sr.im.getLsbD (i + 2) = true) ∨
        ∃ j, j < 2 ∧ s.sampled.cr.swi.getLsbD j = true ∧ s.sr.im.getLsbD j = true)
    (taken → s.boundary = .ended s.sampled.enterInterrupt ∧ step s = .next s.sampled.enterInterrupt) ∧
      (¬taken → s.boundary = .runs s.sampled)

/-- Interrupt entry: EPC is the address of the instruction that would have executed next, XCODE is 0, CR.IRQ
holds the lines, BAR is kept (R321; the model follows D8 and D9). -/
def Obligations.InterruptEntry : Prop :=
  ∀ s : State, s.pinsNow.reset = false → s.sampled.interruptTaken = true →
    CompletesWith (step s) fun t =>
      TrapsTo s.sampled 0b0000#4 s.pc none t ∧ t.cr.irq = s.pinsNow.irqLines

/-- A fetch from an address that is not a multiple of 4, or in the system segment in user mode, raises ADEL
with EPC and BAR the bad pc (R65, R302; D17). A fetch from a legal address that the memory system answers
with BERR raises IBE, and BAR is not written (R304; D18). -/
def Obligations.FetchErrorsTrap : Prop :=
  (∀ s : State, s.undisturbed = true → ¬ AddressLegal s s.pc .word →
    CompletesWith (step s) (TrapsTo s.sampled 0b0100#4 s.pc (some s.pc))) ∧
  ∀ s : State, s.undisturbed = true → AddressLegal s s.pc .word →
    s.busError s.pc .word .fetch = true →
    CompletesWith (step s) (TrapsTo s.sampled 0b0110#4 s.pc none)

/-- A word that is no instruction raises RI, in either mode, with EPC its address (R307). -/
def Obligations.IllegalWordTraps : Prop :=
  ∀ s : State, s.undisturbed = true → AccessPermitted s s.pc .word .fetch →
    illegalWord (s.mem.wordAt s.pc) = true →
    CompletesWith (step s) (TrapsTo s.sampled 0b1010#4 s.pc none)

/-- Every step has a next state, so that no program stops the machine, where DECODE_STRICT is false and CP0_UNDEF
is not `refuse`; and every instruction has one, but for a privileged MFC0 or MTC0 of an undefined number
where CP0_UNDEF is `refuse`. That no state stops the machine is the model's reading (log 13); that a
machine has such settings is a choice too (log 10, log 11), said here in the hypotheses. -/
def Obligations.EveryStepHasANextState : Prop :=
  (∀ s : State, s.settings.decodeStrict = false → s.settings.cp0Undef ≠ .refuse → ∃ t, step s = .next t) ∧
    ∀ (i : Instr) (s : State),
      (s.settings.cp0Undef = .refuse → s.userMode = false → i.wellFormed = true) → ∃ t, exec i s = .next t

/-! ## Taking an exception, and returning (60_exceptions.md, 43_system.md) -/

/-- Exception entry: EPC, EXL, BAR for ADEL and ADES only, XCODE and pc are written and nothing else; the
machine is privileged and takes no interrupt afterwards, and CR.IRQ keeps following the lines (R310). -/
def Obligations.ExceptionEntry : Prop :=
  (∀ (s : State) (a : Word),
    TrapsTo s 0b0100#4 s.pc (some a) (s.raise (.adel a)) ∧
      TrapsTo s 0b0101#4 s.pc (some a) (s.raise (.ades a)) ∧
      TrapsTo s 0b0110#4 s.pc none (s.raise .ibe) ∧ TrapsTo s 0b0111#4 s.pc none (s.raise .dbe) ∧
      TrapsTo s 0b1010#4 s.pc none (s.raise .ri) ∧ TrapsTo s 0b1011#4 s.pc none (s.raise .cpu) ∧
      TrapsTo s 0b1100#4 s.pc none (s.raise .ovf)) ∧
    ∀ (s : State) (e : Exc),
      (s.raise e).privileged = true ∧
        ((s.raise e).pinsNow.reset = false →
          (s.raise e).boundary = .runs (s.raise e).sampled ∧
            (s.raise e).sampled.cr.irq = s.pinsNow.irqLines)

/-- SYSCALL and BREAK always trap, with EPC = pc + 4 and BAR not written (R311). -/
def Obligations.SystemCallEntry : Prop :=
  ∀ s : State,
    CompletesWith (exec .syscall s) (TrapsTo s 0b1000#4 (s.pc + 4#32) none) ∧
      CompletesWith (exec .breakpoint s) (TrapsTo s 0b1001#4 (s.pc + 4#32) none)

/-- In user mode every word that decodes as MFC0, MTC0 or ERET raises CPU, whatever its fields, and whatever
DECODE_STRICT and CP0_UNDEF are (R308). -/
def Obligations.PrivilegedInstructionsTrapInUserMode : Prop :=
  ∀ (s : State) (w : Word) (i : Instr) (strict : Bool), s.userMode = true → decodeWith strict w = .ok i →
    opcodOf w = 0b010000#6 →
    ((∃ rt rd, i = .mfc0 rt rd ∨ i = .mtc0 rt rd) ∨ i = .eret) ∧
      CompletesWith (exec i s) (TrapsTo s 0b1011#4 s.pc none)

/-- `privileged()` is UM = 0, or EXL = 1, or ERL = 1, and user mode is its opposite (R330), at bits 4, 1 and 2
of SR as MFC0 reads it (R31, R32; the spec's decisions D28, D11). -/
def Obligations.PrivilegedFormula : Prop :=
  ∀ s : State,
    (s.privileged = true ↔
      s.sr.toWord.getLsbD 4 = false ∨ s.sr.toWord.getLsbD 1 = true ∨ s.sr.toWord.getLsbD 2 = true) ∧
    (s.userMode = true ↔ s.privileged = false)

/-- ERET in supervisor mode: EXL becomes 0, pc becomes EPC, and nothing else changes (R335); with
ERL = 1 too (R265, D30; log 17). -/
def Obligations.EretReturns : Prop :=
  ∀ s : State, s.userMode = false →
    exec .eret s = .next { s with sr := { s.sr with exl := false }, pc := s.epc }

/-- The boot sequence: from SR = 0x0004, MTC0 of 0xFF13 to SR leaves the machine privileged with interrupts
off, MTC0 writes EPC, and ERET enters user mode at EPC with SR = 0xFF11 and all eight requests enabled.
Writing 0xFF11 at once, while running in the system segment, traps with ADEL on the next fetch (R364), with EPC
and BAR the address of that fetch (R302; the spec's decision D17). -/
def Obligations.BootSequenceEntersUserMode : Prop :=
  ∀ (s : State) (rt re : RegNum), s.sr.toWord = 0x00000004#32 →
    (s.reg rt = 0x0000FF13#32 →
      CompletesWith (exec (.mtc0 rt 12#5) s) fun t =>
        t.sr.toWord = 0x0000FF13#32 ∧ t.privileged = true ∧ t.interruptTaken = false ∧
          CompletesWith (exec (.mtc0 re 14#5) t) fun u =>
            u.epc = s.reg re ∧ u.privileged = true ∧
              CompletesWith (exec .eret u) fun v =>
                v.sr.toWord = 0x0000FF11#32 ∧ v.userMode = true ∧ v.pc = s.reg re ∧
                  v.sr.ie = true ∧ v.sr.im = 0xFF#8) ∧
    (s.reg rt = 0x0000FF11#32 → 0x80000000 ≤ (s.pc + 4#32).toNat →
      CompletesWith (exec (.mtc0 rt 12#5) s) fun t =>
        t.userMode = true ∧
          (t.undisturbed = true →
            CompletesWith (step t) (TrapsTo t.sampled 0b0100#4 t.pc (some t.pc))))

/-! ## Arithmetic and logic (40_arith_logic.md) -/

/-- ADD, SUB and ADDI write the exact signed result when it can be represented (R143, R145, R167). -/
def Obligations.SignedResultWithoutOverflow : Prop :=
  (∀ (s : State) (rs rt rd : RegNum), FitsSigned ((s.reg rs).toInt + (s.reg rt).toInt) →
    CompletesWith (exec (.add rs rt rd) s)
      (OnlyWritesReg s rd (BitVec.ofInt 32 ((s.reg rs).toInt + (s.reg rt).toInt)) (s.pc + 4#32))) ∧
  (∀ (s : State) (rs rt rd : RegNum), FitsSigned ((s.reg rs).toInt - (s.reg rt).toInt) →
    CompletesWith (exec (.sub rs rt rd) s)
      (OnlyWritesReg s rd (BitVec.ofInt 32 ((s.reg rs).toInt - (s.reg rt).toInt)) (s.pc + 4#32))) ∧
  (∀ (s : State) (rs rt : RegNum) (imd16 : BitVec 16), FitsSigned ((s.reg rs).toInt + imd16.toInt) →
    CompletesWith (exec (.addi rs rt imd16) s)
      (OnlyWritesReg s rt (BitVec.ofInt 32 ((s.reg rs).toInt + imd16.toInt)) (s.pc + 4#32)))

/-- ADD, SUB and ADDI raise OVF and write no register when the signed result cannot be represented, the
destination R0 included; and no other instruction ever leaves XCODE = OVF behind it (R177, R306; D39). -/
def Obligations.OverflowTraps : Prop :=
  (∀ (s : State) (rs rt rd : RegNum), ¬ FitsSigned ((s.reg rs).toInt + (s.reg rt).toInt) →
    CompletesWith (exec (.add rs rt rd) s) (TrapsTo s 0b1100#4 s.pc none)) ∧
  (∀ (s : State) (rs rt rd : RegNum), ¬ FitsSigned ((s.reg rs).toInt - (s.reg rt).toInt) →
    CompletesWith (exec (.sub rs rt rd) s) (TrapsTo s 0b1100#4 s.pc none)) ∧
  (∀ (s : State) (rs rt : RegNum) (imd16 : BitVec 16), ¬ FitsSigned ((s.reg rs).toInt + imd16.toInt) →
    CompletesWith (exec (.addi rs rt imd16) s) (TrapsTo s 0b1100#4 s.pc none)) ∧
  ∀ (i : Instr) (s t : State), exec i s = .next t → s.cr.xcode ≠ 0b1100#4 → t.cr.xcode = 0b1100#4 →
    ∃ (rs rt rd : RegNum) (imd16 : BitVec 16),
      i = .add rs rt rd ∨ i = .sub rs rt rd ∨ i = .addi rs rt imd16

/-- ADDU, SUBU and ADDIU compute modulo 2^32 and never trap (R144, R146, R168). -/
def Obligations.WrappingArithmetic : Prop :=
  ∀ (s : State) (rs rt rd : RegNum) (imd16 : BitVec 16),
    CompletesWith (exec (.addu rs rt rd) s)
        (OnlyWritesReg s rd (BitVec.ofNat 32 ((s.reg rs).toNat + (s.reg rt).toNat)) (s.pc + 4#32)) ∧
      CompletesWith (exec (.subu rs rt rd) s)
        (OnlyWritesReg s rd (BitVec.ofInt 32 ((s.reg rs).toNat - (s.reg rt).toNat)) (s.pc + 4#32)) ∧
      CompletesWith (exec (.addiu rs rt imd16) s)
        (OnlyWritesReg s rt (BitVec.ofInt 32 ((s.reg rs).toNat + imd16.toInt)) (s.pc + 4#32))

/-- AND, OR, XOR, NOR work bit by bit; ANDI, ORI, XORI do so with the immediate extended by zeros; LUI puts
the immediate in the upper half (R147 to R150, R171 to R174). -/
def Obligations.BitwiseLogic : Prop :=
  ∀ (s : State) (rs rt rd : RegNum) (imd16 : BitVec 16),
    CompletesWith (exec (.and rs rt rd) s)
        (OnlyWritesBits s rd fun k => (s.reg rs).getLsbD k && (s.reg rt).getLsbD k) ∧
      CompletesWith (exec (.or rs rt rd) s)
        (OnlyWritesBits s rd fun k => (s.reg rs).getLsbD k || (s.reg rt).getLsbD k) ∧
      CompletesWith (exec (.xor rs rt rd) s)
        (OnlyWritesBits s rd fun k => (s.reg rs).getLsbD k != (s.reg rt).getLsbD k) ∧
      CompletesWith (exec (.nor rs rt rd) s)
        (OnlyWritesBits s rd fun k => !((s.reg rs).getLsbD k || (s.reg rt).getLsbD k)) ∧
      CompletesWith (exec (.andi rs rt imd16) s)
        (OnlyWritesBits s rt fun k => decide (k < 16) && (s.reg rs).getLsbD k && imd16.getLsbD k) ∧
      CompletesWith (exec (.ori rs rt imd16) s)
        (OnlyWritesBits s rt fun k => (s.reg rs).getLsbD k || (decide (k < 16) && imd16.getLsbD k)) ∧
      CompletesWith (exec (.xori rs rt imd16) s)
        (OnlyWritesBits s rt fun k => (s.reg rs).getLsbD k != (decide (k < 16) && imd16.getLsbD k)) ∧
      CompletesWith (exec (.lui rt imd16) s)
        (OnlyWritesBits s rt fun k => decide (16 ≤ k) && imd16.getLsbD (k - 16))

/-- SLT and SLTI compare signed numbers, SLTU and SLTIU unsigned ones, SLTIU after extending the immediate by
its sign; the result is 1 or 0 in a general register (R151, R152, R169, R170). -/
def Obligations.ComparisonsLeaveABoolean : Prop :=
  ∀ (s : State) (rs rt rd : RegNum) (imd16 : BitVec 16),
    CompletesWith (exec (.slt rs rt rd) s)
        (OnlyWritesReg s rd (if (s.reg rs).toInt < (s.reg rt).toInt then 1#32 else 0#32) (s.pc + 4#32)) ∧
      CompletesWith (exec (.sltu rs rt rd) s)
        (OnlyWritesReg s rd (if (s.reg rs).toNat < (s.reg rt).toNat then 1#32 else 0#32) (s.pc + 4#32)) ∧
      CompletesWith (exec (.slti rs rt imd16) s)
        (OnlyWritesReg s rt (if (s.reg rs).toInt < imd16.toInt then 1#32 else 0#32) (s.pc + 4#32)) ∧
      CompletesWith (exec (.sltiu rs rt imd16) s)
        (OnlyWritesReg s rt
          (if ((s.reg rs).toNat : Int) < imd16.toInt % 4294967296 then 1#32 else 0#32) (s.pc + 4#32))

/-- SLL, SRL and SRA shift RT by SH, bit by bit: zeros enter, or copies of bit 31 for SRA (R153 to R155). -/
def Obligations.ShiftsByAConstant : Prop :=
  ∀ (s : State) (rt rd : RegNum) (sh : BitVec 5),
    CompletesWith (exec (.sll rt rd sh) s)
        (OnlyWritesBits s rd fun k => decide (sh.toNat ≤ k) && (s.reg rt).getLsbD (k - sh.toNat)) ∧
      CompletesWith (exec (.srl rt rd sh) s)
        (OnlyWritesBits s rd fun k => decide (k + sh.toNat < 32) && (s.reg rt).getLsbD (k + sh.toNat)) ∧
      CompletesWith (exec (.sra rt rd sh) s)
        (OnlyWritesBits s rd fun k => (s.reg rt).getLsbD (min (k + sh.toNat) 31))

/-- SLLV, SRLV and SRAV shift RT by RS modulo 32 (R109, R156 to R158). -/
def Obligations.ShiftsByARegister : Prop :=
  ∀ (s : State) (rs rt rd : RegNum),
    let n := (s.reg rs).toNat % 32
    CompletesWith (exec (.sllv rs rt rd) s)
        (OnlyWritesBits s rd fun k => decide (n ≤ k) && (s.reg rt).getLsbD (k - n)) ∧
      CompletesWith (exec (.srlv rs rt rd) s)
        (OnlyWritesBits s rd fun k => decide (k + n < 32) && (s.reg rt).getLsbD (k + n)) ∧
      CompletesWith (exec (.srav rs rt rd) s)
        (OnlyWritesBits s rd fun k => (s.reg rt).getLsbD (min (k + n) 31))

/-- MULT and MULTU are exact: HI:LO is the whole 64-bit product of signed, or of unsigned, numbers (R159,
R160, R178). -/
def Obligations.ProductsAreExact : Prop :=
  ∀ (s : State) (rs rt : RegNum),
    CompletesWith (exec (.mult rs rt) s) (fun t =>
        OnlyWritesHiLo s t.hi t.lo t ∧ (t.hi ++ t.lo).toInt = (s.reg rs).toInt * (s.reg rt).toInt) ∧
      CompletesWith (exec (.multu rs rt) s) fun t =>
        OnlyWritesHiLo s t.hi t.lo t ∧ (t.hi ++ t.lo).toNat = (s.reg rs).toNat * (s.reg rt).toNat

/-- Divisions with a result: LO times the divisor plus HI is the dividend, and HI is smaller than the divisor;
for DIV, HI has the sign of the dividend, so that the quotient is truncated toward zero (R161, R162,
R178). -/
def Obligations.DefinedDivisions : Prop :=
  (∀ (s : State) (rs rt : RegNum), s.reg rt ≠ 0#32 →
    ¬(s.reg rs = 0x80000000#32 ∧ s.reg rt = 0xFFFFFFFF#32) →
    CompletesWith (exec (.div rs rt) s) fun t =>
      OnlyWritesHiLo s t.hi t.lo t ∧
        (s.reg rs).toInt = t.lo.toInt * (s.reg rt).toInt + t.hi.toInt ∧
        t.hi.toInt.natAbs < (s.reg rt).toInt.natAbs ∧
        (0 ≤ (s.reg rs).toInt → 0 ≤ t.hi.toInt) ∧ ((s.reg rs).toInt < 0 → t.hi.toInt ≤ 0)) ∧
  ∀ (s : State) (rs rt : RegNum), s.reg rt ≠ 0#32 →
    CompletesWith (exec (.divu rs rt) s) fun t =>
      OnlyWritesHiLo s t.hi t.lo t ∧
        (s.reg rs).toNat = t.lo.toNat * (s.reg rt).toNat + t.hi.toNat ∧ t.hi.toNat < (s.reg rt).toNat

/-- The divisions without a defined result complete all the same: only HI, LO and pc change, and HI and LO
depend on the two operands alone. The values are free (R178, D20; log 9). -/
def Obligations.UndefinedDivisionsComplete : Prop :=
  (∀ (s : State) (rs rt : RegNum),
    s.reg rt = 0#32 ∨ (s.reg rs = 0x80000000#32 ∧ s.reg rt = 0xFFFFFFFF#32) →
    CompletesWith (exec (.div rs rt) s) fun t => OnlyWritesHiLo s t.hi t.lo t) ∧
  (∀ (s : State) (rs rt : RegNum), s.reg rt = 0#32 →
    CompletesWith (exec (.divu rs rt) s) fun t => OnlyWritesHiLo s t.hi t.lo t) ∧
  ∀ (s s' t t' : State) (rs rt rs' rt' : RegNum), s.reg rs = s'.reg rs' → s.reg rt = s'.reg rt' →
    (exec (.div rs rt) s = .next t → exec (.div rs' rt') s' = .next t' → t.hi = t'.hi ∧ t.lo = t'.lo) ∧
    (exec (.divu rs rt) s = .next t → exec (.divu rs' rt') s' = .next t' → t.hi = t'.hi ∧ t.lo = t'.lo)

/-- MFHI and MFLO read HI and LO into a general register; MTHI and MTLO write one of them and keep the other
(R163 to R166). -/
def Obligations.HiLoMoves : Prop :=
  ∀ (s : State) (r : RegNum),
    CompletesWith (exec (.mfhi r) s) (OnlyWritesReg s r s.hi (s.pc + 4#32)) ∧
      CompletesWith (exec (.mflo r) s) (OnlyWritesReg s r s.lo (s.pc + 4#32)) ∧
      CompletesWith (exec (.mthi r) s) (OnlyWritesHiLo s (s.reg r) s.lo) ∧
      CompletesWith (exec (.mtlo r) s) (OnlyWritesHiLo s s.hi (s.reg r))

/-! ## Branches and jumps (41_branch_jump.md) -/

/-- J and JAL go to the word IMD26 of the 256-Mbyte region of pc + 4; JR and JALR go to the address that RS
held before; JAL writes pc + 4 into R31 and JALR into RD (R204 to R207). The spec tells a cautious model to
refuse J and JAL in the last word of a 256-Mbyte region (U8, D3), JALR with rd = rs (U10) and JALR with rd other
than 31 (U19); the model runs them by their rules, which is its own choice (log 17). -/
def Obligations.Jumps : Prop :=
  ∀ (s : State) (rs rd : RegNum) (imd26 : BitVec 26),
    let target : Word := BitVec.ofNat 32 ((s.pc + 4#32).toNat / 268435456 * 268435456 + imd26.toNat * 4)
    CompletesWith (exec (.j imd26) s) (OnlySetsPc s target) ∧
      CompletesWith (exec (.jal imd26) s) (OnlyWritesReg s 31#5 (s.pc + 4#32) target) ∧
      CompletesWith (exec (.jr rs) s) (OnlySetsPc s (s.reg rs)) ∧
      CompletesWith (exec (.jalr rs rd) s) (OnlyWritesReg s rd (s.pc + 4#32) (s.reg rs))

/-- The six branches that do not link: the condition on signed numbers or on equality, the target
pc + 4 + 4 * IMD16 when it holds, pc + 4 when it does not; nothing else changes (R208 to R213). -/
def Obligations.ConditionalBranches : Prop :=
  ∀ (s : State) (rs rt : RegNum) (imd16 : BitVec 16),
    let target : Word := BitVec.ofInt 32 (s.pc.toNat + 4 + 4 * imd16.toInt)
    let next := s.pc + 4#32
    CompletesWith (exec (.beq rs rt imd16) s) (OnlySetsPc s (if s.reg rs = s.reg rt then target else next)) ∧
      CompletesWith (exec (.bne rs rt imd16) s) (OnlySetsPc s (if s.reg rs ≠ s.reg rt then target else next)) ∧
      CompletesWith (exec (.blez rs imd16) s) (OnlySetsPc s (if (s.reg rs).toInt ≤ 0 then target else next)) ∧
      CompletesWith (exec (.bgtz rs imd16) s) (OnlySetsPc s (if 0 < (s.reg rs).toInt then target else next)) ∧
      CompletesWith (exec (.bltz rs imd16) s) (OnlySetsPc s (if (s.reg rs).toInt < 0 then target else next)) ∧
      CompletesWith (exec (.bgez rs imd16) s) (OnlySetsPc s (if 0 ≤ (s.reg rs).toInt then target else next))

/-- BLTZAL and BGEZAL write pc + 4 into R31 whether or not they branch, and test the value RS held before,
R31 included (R214, R215; D31). For rs = 31, which U9 tells a cautious model to refuse, that is the model's
choice (log 17). -/
def Obligations.LinkingBranches : Prop :=
  ∀ (s : State) (rs : RegNum) (imd16 : BitVec 16),
    let target : Word := BitVec.ofInt 32 (s.pc.toNat + 4 + 4 * imd16.toInt)
    let next := s.pc + 4#32
    CompletesWith (exec (.bltzal rs imd16) s)
        (OnlyWritesReg s 31#5 next (if (s.reg rs).toInt < 0 then target else next)) ∧
      CompletesWith (exec (.bgezal rs imd16) s)
        (OnlyWritesReg s 31#5 next (if 0 ≤ (s.reg rs).toInt then target else next))

/-! ## Loads, stores and memory (42_load_store.md, 20_memory.md) -/

/-- The displacement of loads and stores is a signed byte count, not scaled, from -32768 to 32767 (R106), added to
`x[rs]` modulo 2^32 (R68; the spec's decision D21). -/
def Obligations.EffectiveAddress : Prop :=
  ∀ (s : State) (rs : RegNum) (imd16 : BitVec 16),
    s.effAddr rs imd16 = BitVec.ofInt 32 ((s.reg rs).toNat + imd16.toInt) ∧
      -32768 ≤ imd16.toInt ∧ imd16.toInt ≤ 32767

/-- Loads, where the access is permitted: LB and LH extend by the sign, LBU and LHU by zeros, LW takes the
word; the byte at the address is the lowest one; only RT and pc change (R63, R232 to R236). -/
def Obligations.LoadsReadMemory : Prop :=
  ∀ (s : State) (rs rt : RegNum) (imd16 : BitVec 16),
    let a := s.effAddr rs imd16
    let b0 := s.mem.byteAt a
    let b1 := s.mem.byteAt (a + 1#32)
    let b2 := s.mem.byteAt (a + 2#32)
    let b3 := s.mem.byteAt (a + 3#32)
    (AccessPermitted s a .byte .load →
      CompletesWith (exec (.lb rs rt imd16) s)
          (OnlyWritesReg s rt (BitVec.ofInt 32 b0.toInt) (s.pc + 4#32)) ∧
        CompletesWith (exec (.lbu rs rt imd16) s)
          (OnlyWritesReg s rt (BitVec.ofNat 32 b0.toNat) (s.pc + 4#32))) ∧
    (AccessPermitted s a .half .load →
      CompletesWith (exec (.lh rs rt imd16) s)
          (OnlyWritesReg s rt (BitVec.ofInt 32 (b1 ++ b0).toInt) (s.pc + 4#32)) ∧
        CompletesWith (exec (.lhu rs rt imd16) s)
          (OnlyWritesReg s rt (BitVec.ofNat 32 (b1.toNat * 256 + b0.toNat)) (s.pc + 4#32))) ∧
    (AccessPermitted s a .word .load →
      CompletesWith (exec (.lw rs rt imd16) s)
        (OnlyWritesReg s rt
          (BitVec.ofNat 32 (b3.toNat * 16777216 + b2.toNat * 65536 + b1.toNat * 256 + b0.toNat))
          (s.pc + 4#32)))

/-- Stores, where the access is permitted: the low bytes of RT go to the effective address and the addresses
after it, the lowest byte first; every other byte, and every register but pc, is kept (R64, R237 to
R239). -/
def Obligations.StoresWriteMemory : Prop :=
  ∀ (s : State) (rs rt : RegNum) (imd16 : BitVec 16),
    let a := s.effAddr rs imd16
    let v := s.reg rt
    (AccessPermitted s a .byte .store →
      CompletesWith (exec (.sb rs rt imd16) s) fun t =>
        OnlyWritesMem s a .byte t ∧ t.mem.byteAt a = v.extractLsb' 0 8) ∧
    (AccessPermitted s a .half .store →
      CompletesWith (exec (.sh rs rt imd16) s) fun t =>
        OnlyWritesMem s a .half t ∧ t.mem.byteAt a = v.extractLsb' 0 8 ∧
          t.mem.byteAt (a + 1#32) = v.extractLsb' 8 8) ∧
    (AccessPermitted s a .word .store →
      CompletesWith (exec (.sw rs rt imd16) s) fun t =>
        OnlyWritesMem s a .word t ∧ t.mem.byteAt a = v.extractLsb' 0 8 ∧
          t.mem.byteAt (a + 1#32) = v.extractLsb' 8 8 ∧ t.mem.byteAt (a + 2#32) = v.extractLsb' 16 8 ∧
          t.mem.byteAt (a + 3#32) = v.extractLsb' 24 8)

/-- A load from an illegal address raises ADEL, with BAR the address, and writes no register (R302). -/
def Obligations.LoadAddressErrors : Prop :=
  ∀ (s : State) (rs rt : RegNum) (imd16 : BitVec 16),
    let a := s.effAddr rs imd16
    let traps := TrapsTo s 0b0100#4 s.pc (some a)
    (¬ AddressLegal s a .byte →
      CompletesWith (exec (.lb rs rt imd16) s) traps ∧ CompletesWith (exec (.lbu rs rt imd16) s) traps) ∧
    (¬ AddressLegal s a .half →
      CompletesWith (exec (.lh rs rt imd16) s) traps ∧ CompletesWith (exec (.lhu rs rt imd16) s) traps) ∧
    (¬ AddressLegal s a .word → CompletesWith (exec (.lw rs rt imd16) s) traps)

/-- ADES is raised by SW with `addr[1:0] != 0`, by SH with `addr[0] != 0`, and by SB, SH and SW with
`addr[31] = 1` while not privileged; BAR receives the address and memory is unchanged (R303). -/
def Obligations.StoreAddressErrors : Prop :=
  ∀ (s : State) (rs rt : RegNum) (imd16 : BitVec 16),
    let a := s.effAddr rs imd16
    let traps := TrapsTo s 0b0101#4 s.pc (some a)
    (a.extractLsb' 0 2 ≠ 0#2 → CompletesWith (exec (.sw rs rt imd16) s) traps) ∧
    (a.getLsbD 0 = true → CompletesWith (exec (.sh rs rt imd16) s) traps) ∧
    (a.getLsbD 31 = true → s.privileged = false →
      CompletesWith (exec (.sb rs rt imd16) s) traps ∧ CompletesWith (exec (.sh rs rt imd16) s) traps ∧
        CompletesWith (exec (.sw rs rt imd16) s) traps)

/-- A load or store at a legal address that the memory system answers with BERR raises DBE: BAR, the
registers and memory are kept (R305; D18, D24). -/
def Obligations.DataBusErrors : Prop :=
  ∀ (s : State) (rs rt : RegNum) (imd16 : BitVec 16) (w : Width),
    let a := s.effAddr rs imd16
    let traps := TrapsTo s 0b0111#4 s.pc none
    AddressLegal s a w →
    (s.busError a w .load = true →
      (w = .byte → CompletesWith (exec (.lb rs rt imd16) s) traps ∧
        CompletesWith (exec (.lbu rs rt imd16) s) traps) ∧
      (w = .half → CompletesWith (exec (.lh rs rt imd16) s) traps ∧
        CompletesWith (exec (.lhu rs rt imd16) s) traps) ∧
      (w = .word → CompletesWith (exec (.lw rs rt imd16) s) traps)) ∧
    (s.busError a w .store = true →
      (w = .byte → CompletesWith (exec (.sb rs rt imd16) s) traps) ∧
      (w = .half → CompletesWith (exec (.sh rs rt imd16) s) traps) ∧
      (w = .word → CompletesWith (exec (.sw rs rt imd16) s) traps))

/-- Mixed widths: after a word is stored, its bytes and half-words read as its parts, and a word read back
after four byte stores is made of those bytes (R66). -/
def Obligations.MixedWidthAccess : Prop :=
  ∀ (m : Memory) (a v : Word),
    (m.setWord a v).byteAt a = v.extractLsb' 0 8 ∧ (m.setWord a v).byteAt (a + 1#32) = v.extractLsb' 8 8 ∧
      (m.setWord a v).byteAt (a + 2#32) = v.extractLsb' 16 8 ∧
      (m.setWord a v).byteAt (a + 3#32) = v.extractLsb' 24 8 ∧
      (m.setWord a v).halfAt a = v.extractLsb' 0 16 ∧
      (m.setWord a v).halfAt (a + 2#32) = v.extractLsb' 16 16 ∧ (m.setWord a v).wordAt a = v ∧
      ∀ b0 b1 b2 b3 : Byte,
        ((((m.setByte a b0).setByte (a + 1#32) b1).setByte (a + 2#32) b2).setByte (a + 3#32) b3).wordAt a =
            b3 ++ b2 ++ b1 ++ b0 ∧
          ((m.setHalf a (b1 ++ b0)).setHalf (a + 2#32) (b3 ++ b2)).wordAt a = b3 ++ b2 ++ b1 ++ b0

/-- A load sees the store before it: LW right after SW of the same address, whatever base register and
displacement give it, writes the stored word into its destination and nothing else but pc (R77, R371; D22, D26). -/
def Obligations.LoadAfterStore : Prop :=
  ∀ (s : State) (rs rt rs' rd : RegNum) (imd16 imd16' : BitVec 16),
    let a := s.effAddr rs imd16
    AccessPermitted s a .word .store → AccessPermitted s a .word .load → s.effAddr rs' imd16' = a →
    CompletesWith (exec (.sw rs rt imd16) s) fun t =>
      CompletesWith (exec (.lw rs' rd imd16') t) (OnlyWritesReg t rd (s.reg rt) (t.pc + 4#32))

/-- A fetch sees the store before it: after SW of the canonical word of `i`, the next step from that address
runs `i`, with nothing done in between (R80; D23; for a machine with caches, U14, log 17). -/
def Obligations.FetchAfterStore : Prop :=
  ∀ (s : State) (rs rt : RegNum) (imd16 : BitVec 16) (i : Instr), s.reg rt = encode i →
    AccessPermitted s (s.effAddr rs imd16) .word .store →
    CompletesWith (exec (.sw rs rt imd16) s) fun t =>
      ∀ u : State, u.mem = t.mem → u.pc = s.effAddr rs imd16 → u.undisturbed = true →
        AccessPermitted u u.pc .word .fetch → step u = exec i u.sampled

/-! ## The CP0 registers (10_state.md, 43_system.md) -/

/-- The places of the fields in SR and CR, as MFC0 reads them; every other bit reads 0 (R31, R32, R34, R35). -/
def Obligations.StatusAndCauseLayout : Prop :=
  (∀ (r : StatusReg) (k : Nat), k < 32 →
    r.toWord.getLsbD k =
      if 8 ≤ k ∧ k ≤ 15 then r.im.getLsbD (k - 8)
      else if k = 4 then r.um else if k = 2 then r.erl else if k = 1 then r.exl else if k = 0 then r.ie
      else false) ∧
  ∀ (r : CauseReg) (k : Nat), k < 32 →
    r.toWord.getLsbD k =
      if 10 ≤ k ∧ k ≤ 15 then r.irq.getLsbD (k - 10)
      else if 8 ≤ k ∧ k ≤ 9 then r.swi.getLsbD (k - 8)
      else if 2 ≤ k ∧ k ≤ 5 then r.xcode.getLsbD (k - 2)
      else false

/-- MFC0 in supervisor mode reads BAR, SR, CR, EPC and PROCID into RT and changes no CP0 register (R263). -/
def Obligations.Mfc0Reads : Prop :=
  ∀ (s : State) (rt : RegNum), s.userMode = false →
    CompletesWith (exec (.mfc0 rt 8#5) s) (OnlyWritesReg s rt s.bar (s.pc + 4#32)) ∧
      CompletesWith (exec (.mfc0 rt 12#5) s) (OnlyWritesReg s rt s.sr.toWord (s.pc + 4#32)) ∧
      CompletesWith (exec (.mfc0 rt 13#5) s) (OnlyWritesReg s rt s.cr.toWord (s.pc + 4#32)) ∧
      CompletesWith (exec (.mfc0 rt 14#5) s) (OnlyWritesReg s rt s.epc (s.pc + 4#32)) ∧
      CompletesWith (exec (.mfc0 rt 15#5) s) (OnlyWritesReg s rt s.procid (s.pc + 4#32))

/-- MTC0 in supervisor mode: all of BAR and EPC, the twelve bits of SR, the two SWI bits of CR are written;
PROCID and CYCLECOUNT ignore the write; nothing else changes but pc (R264). -/
def Obligations.Mtc0Writes : Prop :=
  ∀ (s : State) (rt : RegNum), s.userMode = false →
    let v := s.reg rt
    let next := s.pc + 4#32
    exec (.mtc0 rt 8#5) s = .next { s with bar := v, pc := next } ∧
      exec (.mtc0 rt 12#5) s =
        .next { s with
          sr := ⟨v.extractLsb' 8 8, v.getLsbD 4, v.getLsbD 2, v.getLsbD 1, v.getLsbD 0⟩
          pc := next } ∧
      exec (.mtc0 rt 13#5) s = .next { s with cr := { s.cr with swi := v.extractLsb' 8 2 }, pc := next } ∧
      exec (.mtc0 rt 14#5) s = .next { s with epc := v, pc := next } ∧
      exec (.mtc0 rt 15#5) s = .next { s with pc := next } ∧
      exec (.mtc0 rt 16#5) s = .next { s with pc := next }

/-- MFC0 of CYCLECOUNT in supervisor mode moves the count on by a free number of cycles, keeps it, and reads
it into RT (R40, D15). For a CP0 number the spec does not define CP0_UNDEF decides: MFC0 reads a free value and
MTC0 does nothing, or both raise RI, or both are refused (R41, D14). The form of the count's draw and of the
free value are the model's choices (log 8, log 10). -/
def Obligations.Cp0FreeValues : Prop :=
  ∀ (s : State) (rt : RegNum), s.userMode = false →
    (let c := s.cyclecount + BitVec.ofNat 32 (Config.cyclesElapsed s.tick);
      CompletesWith (exec (.mfc0 rt 16#5) s)
        (OnlyWritesReg { s with cyclecount := c } rt c (s.pc + 4#32))) ∧
    ∀ rd : RegNum, definedCp0 rd = false →
      (s.settings.cp0Undef = .anyValue →
        CompletesWith (exec (.mfc0 rt rd) s) (OnlyWritesReg s rt (Config.cp0Draw s.tick rd) (s.pc + 4#32)) ∧
          CompletesWith (exec (.mtc0 rt rd) s) (OnlySetsPc s (s.pc + 4#32))) ∧
      (s.settings.cp0Undef = .ri →
        CompletesWith (exec (.mfc0 rt rd) s) (TrapsTo s 0b1010#4 s.pc none) ∧
          CompletesWith (exec (.mtc0 rt rd) s) (TrapsTo s 0b1010#4 s.pc none)) ∧
      (s.settings.cp0Undef = .refuse →
        exec (.mfc0 rt rd) s = .refused (.undefinedCp0 rd) ∧
          exec (.mtc0 rt rd) s = .refused (.undefinedCp0 rd))

/-- Software interrupts: MTC0 to CR makes a request pending; it is taken at a boundary where it is enabled,
with XCODE 0, and stays pending; only an MTC0 to CR in supervisor mode ever changes the SWI bits (R323). The EPC
of its entry is the next instruction's address (R321; the spec's decision D8). -/
def Obligations.SoftwareInterrupts : Prop :=
  (∀ (s : State) (rt : RegNum) (j : Nat), s.userMode = false → j < 2 →
    (s.reg rt).getLsbD (8 + j) = true →
    CompletesWith (exec (.mtc0 rt 13#5) s) fun t => t.cr.swi.getLsbD j = true) ∧
  (∀ (s : State) (j : Nat), j < 2 → s.cr.swi.getLsbD j = true → s.sr.im.getLsbD j = true →
    s.sr.ie = true → s.sr.exl = false → s.sr.erl = false → s.pinsNow.reset = false →
    CompletesWith (step s) fun t =>
      TrapsTo s.sampled 0b0000#4 s.pc none t ∧ t.cr.swi.getLsbD j = true) ∧
  ∀ s t : State, step s = .next t → t.cr.swi ≠ s.cr.swi →
    s.userMode = false ∧ s.undisturbed = true ∧
      ∃ rt, s.sampled.fetch = .instr (.mtc0 rt 13#5) ∧ t.cr.swi = (s.reg rt).extractLsb' 8 2

/-! ## The whole machine -/

/-- The state after RESET: at power-on, under any parameters of a launch, pc, SR, CYCLECOUNT and R0 as the spec
gives them, PROCID and memory as the launch does, supervisor mode, and no interrupt whatever the lines (R45,
R362; D16, D24), and `State.reset` is such a state; at a later boundary CYCLECOUNT restarts and PROCID stays
(R362; that CR.IRQ is not sampled there is the model's reading, log 15). -/
def Obligations.ResetState : Prop :=
  (∀ l : Launch,
    l.powerOn.pc = 0xBFC00000#32 ∧ l.powerOn.sr.toWord = 0x00000004#32 ∧ l.powerOn.cyclecount = 0#32 ∧
      l.powerOn.reg 0#5 = 0#32 ∧ l.powerOn.procid = l.procid ∧ l.powerOn.mem = l.initialMemory ∧
      l.powerOn.userMode = false ∧
      ∀ lines : BitVec 6, (l.powerOn.sampleLines lines).interruptTaken = false) ∧
  (∃ l : Launch, State.reset = l.powerOn) ∧
  ∀ s : State, s.pinsNow.reset = true →
    CompletesWith (step s) fun t => t.cyclecount = 0#32 ∧ t.procid = s.procid ∧ t.cr = s.cr

/-- The invariant holds at reset, and at power-on under every launch whose memory is in canonical form. It rests
on the model's choices of an empty memory list, of that form, and of CR = 0 (log 2, log 4). -/
def Obligations.ResetHasTheInvariant : Prop :=
  State.reset.inv = true ∧ ∀ l : Launch, l.initialMemory.wf = true → l.powerOn.inv = true

/-- Every step keeps the invariant: memory stays in its canonical form (the model's own form, log 4) and
XCODE is never given a value that R301 marks unused. -/
def Obligations.StepKeepsTheInvariant : Prop :=
  ∀ s t : State, s.inv = true → step s = .next t → t.inv = true

/-- R0 reads as zero and a write to it changes nothing (R21). -/
def Obligations.ZeroRegister : Prop :=
  ∀ (s : State) (v : Word), s.reg 0#5 = 0#32 ∧ s.setReg 0#5 v = s

/-- No run ever changes PROCID, which is hardwired (R39), nor the settings of CP0_UNDEF and DECODE_STRICT, which
are parameters (R7), nor the accesses that get BERR (log 5). -/
def Obligations.HardwiredStaysFixed : Prop :=
  ∀ s t : State, Reaches s t → t.procid = s.procid ∧ t.settings = s.settings ∧ t.berr = s.berr

/-- A run ends in the first state in which the launch's predicate HALT holds, when one is reached in the steps
it has; and it goes on through states in which HALT does not hold. That a predicate on states ends a run is the
spec's (R7, D32); that it is looked at before the first step and between steps, so that the first state in which
it holds ends the run, is the model's choice (log 21). -/
def Obligations.RunEndsAtTheFirstHaltingState : Prop :=
  ∀ (halt : State → Bool) (n : Nat) (s t : State),
    (runUntil halt n s = .halted t ↔
      ∃ k, k ≤ n ∧ stepTimes k s = .next t ∧ halt t = true ∧ NotHaltedBefore halt k s) ∧
    (runUntil halt n s = .going t ↔
      stepTimes n s = .next t ∧ NotHaltedBefore halt (n + 1) s)

/-- Only SB, SH and SW write memory, only where the access is permitted, and only the bytes of the access
(R230). -/
def Obligations.OnlyStoresWriteMemory : Prop :=
  ∀ (i : Instr) (s t : State) (b : Word), exec i s = .next t → t.mem.byteAt b ≠ s.mem.byteAt b →
    ∃ (rs rt : RegNum) (imd16 : BitVec 16) (w : Width),
      ((i = .sb rs rt imd16 ∧ w = .byte) ∨ (i = .sh rs rt imd16 ∧ w = .half) ∨
        (i = .sw rs rt imd16 ∧ w = .word)) ∧
      AccessPermitted s (s.effAddr rs imd16) w .store ∧ w.covers (s.effAddr rs imd16) b = true

/-- HI and LO are written by MULT, MULTU, DIV and DIVU, and one each by MTHI and MTLO, and by no other
instruction (R27). -/
def Obligations.OnlySixInstructionsWriteHiLo : Prop :=
  ∀ (i : Instr) (s t : State), exec i s = .next t →
    (t.hi ≠ s.hi → ∃ rs rt, i = .mult rs rt ∨ i = .multu rs rt ∨ i = .div rs rt ∨ i = .divu rs rt ∨
      i = .mthi rs) ∧
    (t.lo ≠ s.lo → ∃ rs rt, i = .mult rs rt ∨ i = .multu rs rt ∨ i = .div rs rt ∨ i = .divu rs rt ∨
      i = .mtlo rs)

/-- BAR is written only by a step that takes ADEL or ADES, and by an MTC0 to BAR in supervisor mode (R38;
D18). -/
def Obligations.BarWrittenOnlyByAddressErrors : Prop :=
  ∀ s t : State, step s = .next t → t.bar ≠ s.bar →
    (t.pc = 0x80000180#32 ∧ t.sr.exl = true ∧ t.epc = s.pc ∧
        (t.cr.xcode = 0b0100#4 ∨ t.cr.xcode = 0b0101#4)) ∨
      (s.userMode = false ∧ ∃ rt, s.sampled.fetch = .instr (.mtc0 rt 8#5) ∧ t.bar = s.reg rt)

/-- The mode changes only as R333 lists: user to supervisor by a trap, which keeps UM, or by RESET;
supervisor to user by an ERET with UM = 1 and ERL = 0, or by an MTC0 that writes such an SR. -/
def Obligations.ModeChanges : Prop :=
  ∀ s t : State, step s = .next t →
    (s.userMode = true → t.userMode = false →
      (t.pc = 0x80000180#32 ∧ t.sr = { s.sr with exl := true } ∧ (t.epc = s.pc ∨ t.epc = s.pc + 4#32)) ∨
        (s.pinsNow.reset = true ∧ t.pc = 0xBFC00000#32 ∧ t.sr.toWord = 0x00000004#32)) ∧
    (s.userMode = false → t.userMode = true →
      (s.sampled.fetch = .instr .eret ∧ s.sr.um = true ∧ s.sr.erl = false ∧ t.pc = s.epc) ∨
        ∃ rt, s.sampled.fetch = .instr (.mtc0 rt 12#5) ∧ (s.reg rt).getLsbD 4 = true ∧
          (s.reg rt).getLsbD 1 = false ∧ (s.reg rt).getLsbD 2 = false)

/-- A step that begins in user mode leaves every byte of the system segment as it was (R70, R332). -/
def Obligations.UserModeKeepsTheSystemSegment : Prop :=
  ∀ (s t : State) (a : Word), s.userMode = true → step s = .next t → 0x80000000 ≤ a.toNat →
    t.mem.byteAt a = s.mem.byteAt a

/-- A step that begins and ends in user mode changes no CP0 register but CR.IRQ, which follows the lines
(R332, R36). For CYCLECOUNT that speaks of the field, which keeps the last count drawn: its form is the model's
choice (log 8), and the counter of the hardware runs on (R40). -/
def Obligations.UserModeKeepsTheCp0Registers : Prop :=
  ∀ s t : State, s.userMode = true → step s = .next t → t.userMode = true →
    t.sr = s.sr ∧ t.cr = { s.cr with irq := s.pinsNow.irqLines } ∧ t.epc = s.epc ∧ t.bar = s.bar ∧
      t.procid = s.procid ∧ t.cyclecount = s.cyclecount

/-- What user mode cannot learn: two states that differ only in the bytes of the system segment take a step
to two states that differ only there (R70, R332). -/
def Obligations.UserModeLearnsNothingOfTheSystemSegment : Prop :=
  ∀ s s' t t' : State, s.userMode = true → SameToUser s s' → step s = .next t → step s' = .next t' →
    SameToUser t t'
end

