-- ==== Sys2Proof/Laws/Decode.lean ====
section
/-! SUPPORT. The fields of a word written in a format, and the bits of a word under a mask written in the
same format. -/

namespace Sys2Proof

variable (op f : BitVec 6) (rs rt rd : RegNum) (sh : BitVec 5) (imd16 : BitVec 16) (imd26 : BitVec 26)

/-! ## The bits of a word -/

/-- The bits of a Format R word (R102). -/
theorem getLsbD_formatR (k : Nat) :
    (formatR op rs rt rd sh f).getLsbD k =
      if k < 6 then f.getLsbD k
      else if k < 11 then sh.getLsbD (k - 6)
      else if k < 16 then rd.getLsbD (k - 11)
      else if k < 21 then rt.getLsbD (k - 16)
      else if k < 26 then rs.getLsbD (k - 21)
      else op.getLsbD (k - 26) := by
  have h : (formatR op rs rt rd sh f).getLsbD k =
      if k < 6 then f.getLsbD k else (op ++ rs ++ rt ++ rd ++ sh).getLsbD (k - 6) := BitVec.getLsbD_append
  rw [h, BitVec.getLsbD_append, BitVec.getLsbD_append, BitVec.getLsbD_append, BitVec.getLsbD_append]
  repeat' split
  all_goals first | omega | rfl

/-- The bits of a Format I word (R103). -/
theorem getLsbD_formatI (k : Nat) :
    (formatI op rs rt imd16).getLsbD k =
      if k < 16 then imd16.getLsbD k
      else if k < 21 then rt.getLsbD (k - 16)
      else if k < 26 then rs.getLsbD (k - 21)
      else op.getLsbD (k - 26) := by
  have h : (formatI op rs rt imd16).getLsbD k =
      if k < 16 then imd16.getLsbD k else (op ++ rs ++ rt).getLsbD (k - 16) := BitVec.getLsbD_append
  rw [h, BitVec.getLsbD_append, BitVec.getLsbD_append]
  repeat' split
  all_goals first | omega | rfl

/-- The bits of a Format J word (R104). -/
theorem getLsbD_formatJ (k : Nat) :
    (formatJ op imd26).getLsbD k = if k < 26 then imd26.getLsbD k else op.getLsbD (k - 26) :=
  BitVec.getLsbD_append

/-! ## Format R (R102) -/

@[simp] theorem opcodOf_formatR : opcodOf (formatR op rs rt rd sh f) = op := by
  ext k hk
  simp only [opcodOf, BitVec.getElem_extractLsb', getLsbD_formatR]
  simp (disch := omega) only [if_neg, Nat.add_sub_cancel_left, BitVec.getLsbD_eq_getElem]

@[simp] theorem rsOf_formatR : rsOf (formatR op rs rt rd sh f) = rs := by
  ext k hk
  simp only [rsOf, BitVec.getElem_extractLsb', getLsbD_formatR]
  simp (disch := omega) only [if_neg, if_pos, Nat.add_sub_cancel_left, BitVec.getLsbD_eq_getElem]

@[simp] theorem rtOf_formatR : rtOf (formatR op rs rt rd sh f) = rt := by
  ext k hk
  simp only [rtOf, BitVec.getElem_extractLsb', getLsbD_formatR]
  simp (disch := omega) only [if_neg, if_pos, Nat.add_sub_cancel_left, BitVec.getLsbD_eq_getElem]

@[simp] theorem rdOf_formatR : rdOf (formatR op rs rt rd sh f) = rd := by
  ext k hk
  simp only [rdOf, BitVec.getElem_extractLsb', getLsbD_formatR]
  simp (disch := omega) only [if_neg, if_pos, Nat.add_sub_cancel_left, BitVec.getLsbD_eq_getElem]

@[simp] theorem shOf_formatR : shOf (formatR op rs rt rd sh f) = sh := by
  ext k hk
  simp only [shOf, BitVec.getElem_extractLsb', getLsbD_formatR]
  simp (disch := omega) only [if_neg, if_pos, Nat.add_sub_cancel_left, BitVec.getLsbD_eq_getElem]

@[simp] theorem funcOf_formatR : funcOf (formatR op rs rt rd sh f) = f := by
  ext k hk
  simp only [funcOf, BitVec.getElem_extractLsb', getLsbD_formatR]
  simp (disch := omega) only [if_pos, Nat.zero_add, BitVec.getLsbD_eq_getElem]

/-! ## Format I (R103) -/

@[simp] theorem opcodOf_formatI : opcodOf (formatI op rs rt imd16) = op := by
  ext k hk
  simp only [opcodOf, BitVec.getElem_extractLsb', getLsbD_formatI]
  simp (disch := omega) only [if_neg, Nat.add_sub_cancel_left, BitVec.getLsbD_eq_getElem]

@[simp] theorem rsOf_formatI : rsOf (formatI op rs rt imd16) = rs := by
  ext k hk
  simp only [rsOf, BitVec.getElem_extractLsb', getLsbD_formatI]
  simp (disch := omega) only [if_neg, if_pos, Nat.add_sub_cancel_left, BitVec.getLsbD_eq_getElem]

@[simp] theorem rtOf_formatI : rtOf (formatI op rs rt imd16) = rt := by
  ext k hk
  simp only [rtOf, BitVec.getElem_extractLsb', getLsbD_formatI]
  simp (disch := omega) only [if_neg, if_pos, Nat.add_sub_cancel_left, BitVec.getLsbD_eq_getElem]

@[simp] theorem imd16Of_formatI : imd16Of (formatI op rs rt imd16) = imd16 := by
  ext k hk
  simp only [imd16Of, BitVec.getElem_extractLsb', getLsbD_formatI]
  simp (disch := omega) only [if_pos, Nat.zero_add, BitVec.getLsbD_eq_getElem]

/-! ## Format J (R104) -/

@[simp] theorem opcodOf_formatJ : opcodOf (formatJ op imd26) = op := by
  ext k hk
  simp only [opcodOf, BitVec.getElem_extractLsb', getLsbD_formatJ]
  simp (disch := omega) only [if_neg, Nat.add_sub_cancel_left, BitVec.getLsbD_eq_getElem]

@[simp] theorem imd26Of_formatJ : imd26Of (formatJ op imd26) = imd26 := by
  ext k hk
  simp only [imd26Of, BitVec.getElem_extractLsb', getLsbD_formatJ]
  simp (disch := omega) only [if_pos, Nat.zero_add, BitVec.getLsbD_eq_getElem]

/-! ## A word from its fields -/

theorem eq_formatR (w : Word) :
    w = formatR (opcodOf w) (rsOf w) (rtOf w) (rdOf w) (shOf w) (funcOf w) := by
  apply BitVec.eq_of_getLsbD_eq
  intro k hk
  rw [getLsbD_formatR]
  simp only [opcodOf, rsOf, rtOf, rdOf, shOf, funcOf, BitVec.getLsbD_extractLsb']
  repeat' split
  all_goals
    simp (disch := omega) only [decide_eq_true, Bool.true_and]
    congr 1
    omega

theorem eq_formatI (w : Word) : w = formatI (opcodOf w) (rsOf w) (rtOf w) (imd16Of w) := by
  apply BitVec.eq_of_getLsbD_eq
  intro k hk
  rw [getLsbD_formatI]
  simp only [opcodOf, rsOf, rtOf, imd16Of, BitVec.getLsbD_extractLsb']
  repeat' split
  all_goals
    simp (disch := omega) only [decide_eq_true, Bool.true_and]
    congr 1
    omega

theorem eq_formatJ (w : Word) : w = formatJ (opcodOf w) (imd26Of w) := by
  apply BitVec.eq_of_getLsbD_eq
  intro k hk
  rw [getLsbD_formatJ]
  simp only [opcodOf, imd26Of, BitVec.getLsbD_extractLsb']
  repeat' split
  all_goals
    simp (disch := omega) only [decide_eq_true, Bool.true_and]
    congr 1
    omega

/-! ## Masks -/

theorem formatR_and (op' f' : BitVec 6) (rs' rt' rd' : RegNum) (sh' : BitVec 5) :
    formatR op rs rt rd sh f &&& formatR op' rs' rt' rd' sh' f' =
      formatR (op &&& op') (rs &&& rs') (rt &&& rt') (rd &&& rd') (sh &&& sh') (f &&& f') := by
  apply BitVec.eq_of_getLsbD_eq
  intro k _
  simp only [BitVec.getLsbD_and, getLsbD_formatR]
  repeat' split
  all_goals rfl

theorem formatI_and (op' : BitVec 6) (rs' rt' : RegNum) (imd16' : BitVec 16) :
    formatI op rs rt imd16 &&& formatI op' rs' rt' imd16' =
      formatI (op &&& op') (rs &&& rs') (rt &&& rt') (imd16 &&& imd16') := by
  apply BitVec.eq_of_getLsbD_eq
  intro k _
  simp only [BitVec.getLsbD_and, getLsbD_formatI]
  repeat' split
  all_goals rfl

theorem formatJ_and (op' : BitVec 6) (imd26' : BitVec 26) :
    formatJ op imd26 &&& formatJ op' imd26' = formatJ (op &&& op') (imd26 &&& imd26') := by
  apply BitVec.eq_of_getLsbD_eq
  intro k _
  simp only [BitVec.getLsbD_and, getLsbD_formatJ]
  repeat' split
  all_goals rfl

/-! ## The two settings of DECODE_STRICT -/

theorem decodeWith_false (w : Word) : decodeWith false w = decodeLiteral w := by
  unfold decodeWith
  cases decodeLiteral w <;> rfl

/-- Under DECODE_STRICT a word the literal decoder reads is accepted only when it is canonical (R116). -/
theorem decodeWith_true (w : Word) :
    decodeWith true w = match decodeLiteral w with
      | .error r => .error r
      | .ok i => if encode i = w then .ok i else .error (.nonCanonical w) := by
  unfold decodeWith
  cases decodeLiteral w with
  | error r => rfl
  | ok i => by_cases h : encode i = w <;> simp [h]

/-- Whatever the setting, an accepted word is read as the literal decoder reads it (R115, R116). -/
theorem decodeLiteral_of_decodeWith {strict : Bool} {w : Word} {i : Instr}
    (h : decodeWith strict w = .ok i) : decodeLiteral w = .ok i := by
  unfold decodeWith at h
  cases hl : decodeLiteral w with
  | error r => rw [hl] at h; cases h
  | ok j =>
    rw [hl] at h
    dsimp only at h
    split at h
    · cases h
    · exact h

/-- Whatever the setting, the empty cells are rejected alike (R120). -/
theorem decodeWith_error {strict : Bool} {w : Word} {r : DecodeReject} (h : decodeLiteral w = .error r) :
    decodeWith strict w = .error r := by
  unfold decodeWith
  rw [h]

/-- The literal decoder rejects only the empty cells of the two tables (R120). -/
theorem decodeLiteral_error {w : Word} {r : DecodeReject} (h : decodeLiteral w = .error r) :
    r = .emptyOpcode (opcodOf w) ∨ (opcodOf w = 0b000000#6 ∧ r = .emptyFunction (funcOf w)) := by
  unfold decodeLiteral at h
  split at h
  case h_1 hop =>
    unfold decodeSpecial at h
    split at h <;> first | (cases h; done) | skip
    injection h with h
    exact .inr ⟨hop, h.symm⟩
  all_goals first | (cases h; done) | skip
  injection h with h
  exact .inl h.symm

end Sys2Proof
end

