-- ==== Sys2Proof/Laws/Flags.lean ====
section
/-! SUPPORT. What the overflow test and the conditions of the branches say, in integers. -/

namespace Sys2Proof.Machine

/-- The 33-bit sum is exact (R143). -/
theorem sum33_toInt (a b : Word) : (sum33 a b).toInt = a.toInt + b.toInt := by
  have h1 := BitVec.toInt_lt (x := a)
  have h2 := BitVec.le_toInt (x := a)
  have h3 := BitVec.toInt_lt (x := b)
  have h4 := BitVec.le_toInt (x := b)
  unfold sum33
  rw [BitVec.toInt_add, BitVec.toInt_signExtend_of_le (by omega), BitVec.toInt_signExtend_of_le (by omega)]
  apply Int.bmod_eq_of_le <;> omega

/-- The 33-bit difference is exact (R145). -/
theorem diff33_toInt (a b : Word) : (diff33 a b).toInt = a.toInt - b.toInt := by
  have h1 := BitVec.toInt_lt (x := a)
  have h2 := BitVec.le_toInt (x := a)
  have h3 := BitVec.toInt_lt (x := b)
  have h4 := BitVec.le_toInt (x := b)
  unfold diff33
  rw [BitVec.toInt_sub, BitVec.toInt_signExtend_of_le (by omega), BitVec.toInt_signExtend_of_le (by omega)]
  apply Int.bmod_eq_of_le <;> omega

/-- The two top bits of a 33-bit number differ exactly when it does not fit 32 bits (R177). -/
theorem overflow33_eq (t : BitVec 33) : overflow33 t = decide (¬ FitsSigned t.toInt) := by
  have h := t.isLt
  have e32 : t.getLsbD 32 = decide (4294967296 ≤ t.toNat) := by
    unfold BitVec.getLsbD
    rw [Nat.testBit_eq_decide_div_mod_eq, decide_eq_decide]
    omega
  have e31 : t.getLsbD 31 = decide (2147483648 ≤ t.toNat % 4294967296) := by
    unfold BitVec.getLsbD
    rw [Nat.testBit_eq_decide_div_mod_eq, decide_eq_decide]
    omega
  unfold overflow33 FitsSigned
  rw [e32, e31, BitVec.toInt_eq_toNat_bmod, Int.bmod_def]
  by_cases h1 : 4294967296 ≤ t.toNat <;> by_cases h2 : 2147483648 ≤ t.toNat % 4294967296 <;>
    simp only [h1, h2, decide_true, decide_false, bne_self_eq_false] <;> symm <;> simp <;> omega

/-- ADD and ADDI overflow exactly when the signed sum cannot be represented (R143, R177). -/
theorem addOverflows_eq (a b : Word) : addOverflows a b = decide (¬ FitsSigned (a.toInt + b.toInt)) := by
  unfold addOverflows
  rw [overflow33_eq, sum33_toInt]

/-- SUB overflows exactly when the signed difference cannot be represented (R145, R177). -/
theorem subOverflows_eq (a b : Word) : subOverflows a b = decide (¬ FitsSigned (a.toInt - b.toInt)) := by
  unfold subOverflows
  rw [overflow33_eq, diff33_toInt]

/-- Bit 31 is the sign (R212). -/
theorem isNegative_iff (a : Word) : isNegative a = true ↔ a.toInt < 0 := by
  unfold isNegative
  rw [← BitVec.msb_eq_getLsbD_last (x := a)]
  simp [BitVec.msb_eq_toInt]

/-- Bit 31 is 1 or the value is 0: the signed number is not positive (R210). -/
theorem isNotPositive_iff (a : Word) : isNotPositive a = true ↔ a.toInt ≤ 0 := by
  have h0 : (a == 0#32) = true ↔ a.toInt = 0 := by
    rw [beq_iff_eq]
    exact ⟨fun h => by simp [h], fun h => BitVec.eq_of_toInt_eq (by simpa using h)⟩
  unfold isNotPositive
  rw [Bool.or_eq_true, isNegative_iff, h0]
  omega

end Sys2Proof.Machine
end

