-- ==== Sys2Proof/Laws/Memory.lean ====
section
/-! SUPPORT. The laws of memory: a read after a write, and the canonical form, which every operation keeps. -/

namespace Sys2Proof.Machine

/-! ## A read after a write -/

theorem Memory.read_insert (m : Memory) (a c : Nat) (b : Byte) :
    (m.insert a b).read c = if c = a then b else m.read c := by
  induction m with
  | nil => simp [Memory.insert, Memory.read, eq_comm]
  | cons e m ih =>
    obtain ⟨k, v⟩ := e
    by_cases h1 : a < k
    · simp [Memory.insert, h1, Memory.read, eq_comm]
    by_cases h2 : a = k
    · subst h2
      by_cases hc : a = c <;> simp [Memory.insert, Memory.read, hc, eq_comm]
    · by_cases hk : k = c
      · subst hk
        simp [Memory.insert, h1, h2, Memory.read, Ne.symm h2]
      · simp [Memory.insert, h1, h2, Memory.read, hk, ih]

theorem Memory.read_erase (m : Memory) (a c : Nat) :
    (m.erase a).read c = if c = a then unlistedByte else m.read c := by
  induction m with
  | nil => simp [Memory.erase, Memory.read]
  | cons e m ih =>
    obtain ⟨k, v⟩ := e
    unfold Memory.erase at ih ⊢
    by_cases hk : k = a
    · subst hk
      by_cases hc : c = k
      · simpa [hc] using ih
      · have hc' : ¬ k = c := fun h => hc h.symm
        simpa [hc, hc', Memory.read] using ih
    · by_cases hc : k = c
      · subst hc
        simp [Memory.read, hk]
      · simp [Memory.read, hk, hc, ih]

/-- A read of one byte after a write of one byte, at plain addresses. -/
theorem Memory.read_write (m : Memory) (a c : Nat) (b : Byte) :
    (m.write a b).read c = if c = a then b else m.read c := by
  unfold Memory.write
  split
  · next h => rw [Memory.read_erase, h]
  · exact Memory.read_insert m a c b

/-- A read of one byte after a write of one byte (R64). -/
theorem Memory.byteAt_setByte (m : Memory) (a c : Word) (b : Byte) :
    (m.setByte a b).byteAt c = if c = a then b else m.byteAt c := by
  simp [Memory.setByte, Memory.byteAt, Memory.read_write, BitVec.toNat_inj]

/-- A read of one byte after a store of a half-word (R64). -/
theorem Memory.byteAt_setHalf (m : Memory) (a c : Word) (v : Half) :
    (m.setHalf a v).byteAt c =
      if c = a + 1#32 then v.extractLsb' 8 8 else if c = a then v.extractLsb' 0 8 else m.byteAt c := by
  simp [Memory.setHalf, Memory.byteAt_setByte]

/-- A read of one byte after a store of a word (R64). -/
theorem Memory.byteAt_setWord (m : Memory) (a c : Word) (v : Word) :
    (m.setWord a v).byteAt c =
      if c = a + 3#32 then v.extractLsb' 24 8
      else if c = a + 2#32 then v.extractLsb' 16 8
      else if c = a + 1#32 then v.extractLsb' 8 8
      else if c = a then v.extractLsb' 0 8
      else m.byteAt c := by
  simp [Memory.setWord, Memory.byteAt_setByte]

/-! ## The canonical form -/

theorem Memory.wfAbove_cons {low : Option Nat} {k : Nat} {v : Byte} {m : Memory} :
    Memory.wfAbove low ((k, v) :: m) = true ↔
      (∀ a, low = some a → a < k) ∧ k < 2 ^ 32 ∧ v ≠ unlistedByte ∧ Memory.wfAbove (some k) m = true := by
  cases low <;> simp [Memory.wfAbove, and_assoc]

theorem Memory.wfAbove_weaken {low low' : Option Nat} {m : Memory}
    (h : ∀ k, (∀ a, low = some a → a < k) → ∀ a, low' = some a → a < k)
    (hm : Memory.wfAbove low m = true) : Memory.wfAbove low' m = true := by
  cases m with
  | nil => rfl
  | cons e m =>
    obtain ⟨k, v⟩ := e
    rw [Memory.wfAbove_cons] at hm ⊢
    exact ⟨h k hm.1, hm.2⟩

theorem Memory.wfAbove_insert {low : Option Nat} {m : Memory} {a : Nat} {b : Byte}
    (hl : ∀ x, low = some x → x < a) (ha : a < 2 ^ 32) (hb : b ≠ unlistedByte)
    (hm : Memory.wfAbove low m = true) : Memory.wfAbove low (m.insert a b) = true := by
  induction m generalizing low with
  | nil =>
    rw [Memory.insert, Memory.wfAbove_cons]
    exact ⟨hl, ha, hb, rfl⟩
  | cons e m ih =>
    obtain ⟨k, v⟩ := e
    rw [Memory.wfAbove_cons] at hm
    unfold Memory.insert
    split
    · next h1 =>
      rw [Memory.wfAbove_cons, Memory.wfAbove_cons]
      exact ⟨hl, ha, hb, by simpa using h1, hm.2⟩
    split
    · next h2 =>
      rw [Memory.wfAbove_cons]
      exact ⟨hl, ha, hb, h2 ▸ hm.2.2.2⟩
    · next h1 h2 =>
      rw [Memory.wfAbove_cons]
      refine ⟨hm.1, hm.2.1, hm.2.2.1, ih ?_ hm.2.2.2⟩
      intro x hx
      have hkx : k = x := by simpa using hx
      omega

theorem Memory.wfAbove_erase {low : Option Nat} {m : Memory} {a : Nat}
    (hm : Memory.wfAbove low m = true) : Memory.wfAbove low (m.erase a) = true := by
  induction m generalizing low with
  | nil => rfl
  | cons e m ih =>
    obtain ⟨k, v⟩ := e
    rw [Memory.wfAbove_cons] at hm
    unfold Memory.erase at ih ⊢
    by_cases hk : k = a
    · have h := Memory.wfAbove_weaken (low' := low) (fun j hj x hx =>
        Nat.lt_trans (hm.1 x hx) (hj k rfl)) hm.2.2.2
      simpa [hk] using ih h
    · rw [List.filter_cons_of_pos (by simpa using hk), Memory.wfAbove_cons]
      exact ⟨hm.1, hm.2.1, hm.2.2.1, ih hm.2.2.2⟩

/-- A write inside the address space keeps the canonical form. -/
theorem Memory.wf_write {m : Memory} {a : Nat} {b : Byte} (ha : a < 2 ^ 32) (hm : m.wf = true) :
    (m.write a b).wf = true := by
  unfold Memory.write Memory.wf
  split
  · exact Memory.wfAbove_erase hm
  · next h => exact Memory.wfAbove_insert (fun _ hx => by cases hx) ha h hm

/-- A byte store keeps the canonical form. -/
theorem Memory.wf_setByte {m : Memory} (a : Word) (b : Byte) (hm : m.wf = true) :
    (m.setByte a b).wf = true := Memory.wf_write a.isLt hm

/-- A half-word store keeps the canonical form. -/
theorem Memory.wf_setHalf {m : Memory} (a : Word) (v : Half) (hm : m.wf = true) :
    (m.setHalf a v).wf = true := Memory.wf_setByte _ _ (Memory.wf_setByte _ _ hm)

/-- A word store keeps the canonical form. -/
theorem Memory.wf_setWord {m : Memory} (a : Word) (v : Word) (hm : m.wf = true) :
    (m.setWord a v).wf = true :=
  Memory.wf_setByte _ _ (Memory.wf_setByte _ _ (Memory.wf_setByte _ _ (Memory.wf_setByte _ _ hm)))

/-- An address below or at the bound is not in the list. -/
theorem Memory.read_of_wfAbove {m : Memory} {low a : Nat} (hm : Memory.wfAbove (some low) m = true)
    (h : a ≤ low) : m.read a = unlistedByte := by
  induction m generalizing low with
  | nil => rfl
  | cons e m ih =>
    obtain ⟨k, v⟩ := e
    rw [Memory.wfAbove_cons] at hm
    have hk : low < k := hm.1 low rfl
    have hne : k ≠ a := by omega
    simpa [Memory.read, hne] using ih hm.2.2.2 (by omega)

/-- Two lists in the canonical form that read alike everywhere are equal. -/
theorem Memory.eq_of_wfAbove {low low' : Option Nat} {m m' : Memory}
    (hm : Memory.wfAbove low m = true) (hm' : Memory.wfAbove low' m' = true)
    (h : ∀ a, m.read a = m'.read a) : m = m' := by
  induction m generalizing low low' m' with
  | nil =>
    cases m' with
    | nil => rfl
    | cons e' m' =>
      obtain ⟨k', v'⟩ := e'
      rw [Memory.wfAbove_cons] at hm'
      exact absurd (by simpa [Memory.read] using (h k').symm) hm'.2.2.1
  | cons e m ih =>
    obtain ⟨k, v⟩ := e
    cases m' with
    | nil =>
      rw [Memory.wfAbove_cons] at hm
      exact absurd (by simpa [Memory.read] using h k) hm.2.2.1
    | cons e' m' =>
      obtain ⟨k', v'⟩ := e'
      rw [Memory.wfAbove_cons] at hm hm'
      have hk : k = k' := by
        by_contra hne
        rcases Nat.lt_or_gt_of_ne hne with hlt | hgt
        · have h1 := h k
          rw [show Memory.read ((k, v) :: m) k = v from by simp [Memory.read],
            show Memory.read ((k', v') :: m') k = Memory.read m' k from by
              simp [Memory.read, Ne.symm hne],
            Memory.read_of_wfAbove hm'.2.2.2 (by omega)] at h1
          exact hm.2.2.1 h1
        · have h1 := h k'
          rw [show Memory.read ((k', v') :: m') k' = v' from by simp [Memory.read],
            show Memory.read ((k, v) :: m) k' = Memory.read m k' from by
              simp [Memory.read, hne],
            Memory.read_of_wfAbove hm.2.2.2 (by omega)] at h1
          exact hm'.2.2.1 h1.symm
      subst hk
      have hv : v = v' := by simpa [Memory.read] using h k
      subst hv
      rw [ih hm.2.2.2 hm'.2.2.2 fun a => ?_]
      by_cases ha : a ≤ k
      · rw [Memory.read_of_wfAbove hm.2.2.2 ha, Memory.read_of_wfAbove hm'.2.2.2 ha]
      · have hne : k ≠ a := by omega
        simpa [Memory.read, hne] using h a

/-- In the canonical form, equal memories are equal data. -/
theorem Memory.eq_of_read_eq {m m' : Memory} (hm : m.wf = true) (hm' : m'.wf = true)
    (h : ∀ a, m.read a = m'.read a) : m = m' := Memory.eq_of_wfAbove hm hm' h

/-! ## What a store leaves -/

theorem Memory.setByte_outside {m : Memory} {a b : Word} {v : Byte}
    (h : Width.covers .byte a b = false) : (m.setByte a v).byteAt b = m.byteAt b := by
  have h0 : b ≠ a := by rintro rfl; simp [Width.covers, Width.bytes] at h
  simp [Memory.byteAt_setByte, h0]

theorem Memory.setHalf_outside {m : Memory} {a b : Word} {v : Half}
    (h : Width.covers .half a b = false) : (m.setHalf a v).byteAt b = m.byteAt b := by
  have h0 : b ≠ a := by rintro rfl; simp [Width.covers, Width.bytes] at h
  have h1 : b ≠ a + 1#32 := by rintro rfl; simp [Width.covers, Width.bytes] at h
  simp [Memory.byteAt_setHalf, h0, h1]

theorem Memory.setWord_outside {m : Memory} {a b : Word} {v : Word}
    (h : Width.covers .word a b = false) : (m.setWord a v).byteAt b = m.byteAt b := by
  have h0 : b ≠ a := by rintro rfl; simp [Width.covers, Width.bytes] at h
  have h1 : b ≠ a + 1#32 := by rintro rfl; simp [Width.covers, Width.bytes] at h
  have h2 : b ≠ a + 2#32 := by rintro rfl; simp [Width.covers, Width.bytes] at h
  have h3 : b ≠ a + 3#32 := by rintro rfl; simp [Width.covers, Width.bytes] at h
  simp [Memory.byteAt_setWord, h0, h1, h2, h3]

/-- The memory at reset is in the canonical form. -/
theorem reset_mem_wf : State.reset.mem.wf = true := rfl

end Sys2Proof.Machine
end

