-- ==== Sys2Proof/Laws/Operands.lean ====
section
/-! SUPPORT. What the operand forms compute, in integers. -/

namespace Sys2Proof.Machine

/-- The signed immediate keeps its value (R105). -/
theorem sext32_toInt (imd16 : BitVec 16) : (sext32 imd16).toInt = imd16.toInt :=
  BitVec.toInt_signExtend_of_le (by omega)

/-- The amount of SLLV, SRLV and SRAV is the register modulo 32 (R109). -/
theorem lowFive_toNat (v : Word) : (lowFive v).toNat = v.toNat % 32 := by
  simp [lowFive, BitVec.extractLsb'_toNat]

/-- A half-word as the number its bytes make (R63). -/
theorem halfOfBytes_toNat (b1 b0 : Byte) : (b1 ++ b0).toNat = b1.toNat * 256 + b0.toNat := by
  rw [BitVec.toNat_append, ← Nat.shiftLeft_add_eq_or_of_lt b0.isLt, Nat.shiftLeft_eq]

/-- A word as the number its bytes make (R63). -/
theorem wordOfBytes_toNat (b3 b2 b1 b0 : Byte) :
    (b3 ++ b2 ++ b1 ++ b0 : Word).toNat =
      b3.toNat * 16777216 + b2.toNat * 65536 + b1.toNat * 256 + b0.toNat := by
  have h : (b3 ++ b2 ++ b1 ++ b0 : Word).toNat = (b3 ++ b2 ++ b1).toNat <<< 8 ||| b0.toNat :=
    BitVec.toNat_append ..
  rw [h, BitVec.toNat_append, BitVec.toNat_append, ← Nat.shiftLeft_add_eq_or_of_lt b0.isLt,
    ← Nat.shiftLeft_add_eq_or_of_lt b1.isLt, ← Nat.shiftLeft_add_eq_or_of_lt b2.isLt]
  simp only [Nat.shiftLeft_eq]
  omega

/-- The displacement of a branch counts words (R107). -/
theorem branchTarget_eq (s : State) (imd16 : BitVec 16) :
    s.branchTarget imd16 = BitVec.ofInt 32 (s.pc.toNat + 4 + 4 * imd16.toInt) := by
  have e : sext32 imd16 <<< 2 = BitVec.ofInt 32 (4 * imd16.toInt) := by
    rw [← sext32_toInt, BitVec.shiftLeft_eq_mul_twoPow, Int.mul_comm, BitVec.ofInt_mul, BitVec.ofInt_toInt]
    rfl
  unfold State.branchTarget State.nextPc
  rw [e, BitVec.ofInt_add, BitVec.ofInt_add]
  congr 3
  simp

/-- The target of J and JAL is a word of the 256-Mbyte region of pc + 4 (R108). -/
theorem jumpTarget_eq (s : State) (imd26 : BitVec 26) :
    s.jumpTarget imd26 =
      BitVec.ofNat 32 ((s.pc + 4#32).toNat / 268435456 * 268435456 + imd26.toNat * 4) := by
  have hm := imd26.isLt
  have hp := (s.pc + 4#32).isLt
  unfold State.jumpTarget State.nextPc
  generalize s.pc + 4#32 = p at *
  apply BitVec.eq_of_toNat_eq
  have h : (p.extractLsb' 28 4 ++ imd26 ++ 0#2 : Word).toNat =
      (p.extractLsb' 28 4 ++ imd26).toNat <<< 2 ||| (0#2).toNat := BitVec.toNat_append ..
  rw [h, BitVec.toNat_append, BitVec.toNat_ofNat, ← Nat.shiftLeft_add_eq_or_of_lt hm,
    ← Nat.shiftLeft_add_eq_or_of_lt (by decide)]
  simp only [BitVec.extractLsb'_toNat, Nat.shiftRight_eq_div_pow, Nat.shiftLeft_eq, BitVec.toNat_ofNat]
  omega

end Sys2Proof.Machine
end

