-- ==== Sys2Proof/Laws/State.lean ====
section
/-! SUPPORT. One lemma per field per update of the state: what the named operations write and what they
leave. No later proof needs to unfold a record update. -/

namespace Sys2Proof.Machine

variable (s : State)

/-! ## setReg -/

@[simp] theorem State.setReg_gpr (i : RegNum) (v : Word) : (s.setReg i v).gpr = writeGpr s.gpr i v := rfl
@[simp] theorem State.setReg_pc (i : RegNum) (v : Word) : (s.setReg i v).pc = s.pc := rfl
@[simp] theorem State.setReg_hi (i : RegNum) (v : Word) : (s.setReg i v).hi = s.hi := rfl
@[simp] theorem State.setReg_lo (i : RegNum) (v : Word) : (s.setReg i v).lo = s.lo := rfl
@[simp] theorem State.setReg_sr (i : RegNum) (v : Word) : (s.setReg i v).sr = s.sr := rfl
@[simp] theorem State.setReg_cr (i : RegNum) (v : Word) : (s.setReg i v).cr = s.cr := rfl
@[simp] theorem State.setReg_epc (i : RegNum) (v : Word) : (s.setReg i v).epc = s.epc := rfl
@[simp] theorem State.setReg_bar (i : RegNum) (v : Word) : (s.setReg i v).bar = s.bar := rfl
@[simp] theorem State.setReg_procid (i : RegNum) (v : Word) : (s.setReg i v).procid = s.procid := rfl
@[simp] theorem State.setReg_cyclecount (i : RegNum) (v : Word) : (s.setReg i v).cyclecount = s.cyclecount := rfl
@[simp] theorem State.setReg_mem (i : RegNum) (v : Word) : (s.setReg i v).mem = s.mem := rfl
@[simp] theorem State.setReg_berr (i : RegNum) (v : Word) : (s.setReg i v).berr = s.berr := rfl
@[simp] theorem State.setReg_settings (i : RegNum) (v : Word) : (s.setReg i v).settings = s.settings := rfl
@[simp] theorem State.setReg_pins (i : RegNum) (v : Word) : (s.setReg i v).pins = s.pins := rfl
@[simp] theorem State.setReg_tick (i : RegNum) (v : Word) : (s.setReg i v).tick = s.tick := rfl
@[simp] theorem State.setReg_privileged (i : RegNum) (v : Word) : (s.setReg i v).privileged = s.privileged := rfl

/-! ## advance -/

@[simp] theorem State.advance_gpr : (s.advance).gpr = s.gpr := rfl
@[simp] theorem State.advance_pc : (s.advance).pc = s.pc + 4#32 := rfl
@[simp] theorem State.advance_hi : (s.advance).hi = s.hi := rfl
@[simp] theorem State.advance_lo : (s.advance).lo = s.lo := rfl
@[simp] theorem State.advance_sr : (s.advance).sr = s.sr := rfl
@[simp] theorem State.advance_cr : (s.advance).cr = s.cr := rfl
@[simp] theorem State.advance_epc : (s.advance).epc = s.epc := rfl
@[simp] theorem State.advance_bar : (s.advance).bar = s.bar := rfl
@[simp] theorem State.advance_procid : (s.advance).procid = s.procid := rfl
@[simp] theorem State.advance_cyclecount : (s.advance).cyclecount = s.cyclecount := rfl
@[simp] theorem State.advance_mem : (s.advance).mem = s.mem := rfl
@[simp] theorem State.advance_berr : (s.advance).berr = s.berr := rfl
@[simp] theorem State.advance_settings : (s.advance).settings = s.settings := rfl
@[simp] theorem State.advance_pins : (s.advance).pins = s.pins := rfl
@[simp] theorem State.advance_tick : (s.advance).tick = s.tick := rfl
@[simp] theorem State.advance_reg (r : RegNum) : (s.advance).reg r = s.reg r := rfl
@[simp] theorem State.advance_privileged : (s.advance).privileged = s.privileged := rfl

/-! ## jumpTo -/

@[simp] theorem State.jumpTo_gpr (a : Word) : (s.jumpTo a).gpr = s.gpr := rfl
@[simp] theorem State.jumpTo_pc (a : Word) : (s.jumpTo a).pc = a := rfl
@[simp] theorem State.jumpTo_hi (a : Word) : (s.jumpTo a).hi = s.hi := rfl
@[simp] theorem State.jumpTo_lo (a : Word) : (s.jumpTo a).lo = s.lo := rfl
@[simp] theorem State.jumpTo_sr (a : Word) : (s.jumpTo a).sr = s.sr := rfl
@[simp] theorem State.jumpTo_cr (a : Word) : (s.jumpTo a).cr = s.cr := rfl
@[simp] theorem State.jumpTo_epc (a : Word) : (s.jumpTo a).epc = s.epc := rfl
@[simp] theorem State.jumpTo_bar (a : Word) : (s.jumpTo a).bar = s.bar := rfl
@[simp] theorem State.jumpTo_procid (a : Word) : (s.jumpTo a).procid = s.procid := rfl
@[simp] theorem State.jumpTo_cyclecount (a : Word) : (s.jumpTo a).cyclecount = s.cyclecount := rfl
@[simp] theorem State.jumpTo_mem (a : Word) : (s.jumpTo a).mem = s.mem := rfl
@[simp] theorem State.jumpTo_berr (a : Word) : (s.jumpTo a).berr = s.berr := rfl
@[simp] theorem State.jumpTo_settings (a : Word) : (s.jumpTo a).settings = s.settings := rfl
@[simp] theorem State.jumpTo_pins (a : Word) : (s.jumpTo a).pins = s.pins := rfl
@[simp] theorem State.jumpTo_tick (a : Word) : (s.jumpTo a).tick = s.tick := rfl
@[simp] theorem State.jumpTo_reg (a : Word) (r : RegNum) : (s.jumpTo a).reg r = s.reg r := rfl
@[simp] theorem State.jumpTo_privileged (a : Word) : (s.jumpTo a).privileged = s.privileged := rfl

/-! ## enterGiet -/

@[simp] theorem State.enterGiet_gpr (c : Cause) (a : Word) (b : Option Word) : (s.enterGiet c a b).gpr = s.gpr := rfl
@[simp] theorem State.enterGiet_pc (c : Cause) (a : Word) (b : Option Word) : (s.enterGiet c a b).pc = Config.gietEntry := rfl
@[simp] theorem State.enterGiet_hi (c : Cause) (a : Word) (b : Option Word) : (s.enterGiet c a b).hi = s.hi := rfl
@[simp] theorem State.enterGiet_lo (c : Cause) (a : Word) (b : Option Word) : (s.enterGiet c a b).lo = s.lo := rfl
@[simp] theorem State.enterGiet_sr (c : Cause) (a : Word) (b : Option Word) : (s.enterGiet c a b).sr = { s.sr with exl := true } := rfl
@[simp] theorem State.enterGiet_cr (c : Cause) (a : Word) (b : Option Word) : (s.enterGiet c a b).cr = { s.cr with xcode := c.code } := rfl
@[simp] theorem State.enterGiet_epc (c : Cause) (a : Word) (b : Option Word) : (s.enterGiet c a b).epc = a := rfl
@[simp] theorem State.enterGiet_bar (c : Cause) (a : Word) (b : Option Word) : (s.enterGiet c a b).bar = b.getD s.bar := rfl
@[simp] theorem State.enterGiet_procid (c : Cause) (a : Word) (b : Option Word) : (s.enterGiet c a b).procid = s.procid := rfl
@[simp] theorem State.enterGiet_cyclecount (c : Cause) (a : Word) (b : Option Word) : (s.enterGiet c a b).cyclecount = s.cyclecount := rfl
@[simp] theorem State.enterGiet_mem (c : Cause) (a : Word) (b : Option Word) : (s.enterGiet c a b).mem = s.mem := rfl
@[simp] theorem State.enterGiet_berr (c : Cause) (a : Word) (b : Option Word) : (s.enterGiet c a b).berr = s.berr := rfl
@[simp] theorem State.enterGiet_settings (c : Cause) (a : Word) (b : Option Word) : (s.enterGiet c a b).settings = s.settings := rfl
@[simp] theorem State.enterGiet_pins (c : Cause) (a : Word) (b : Option Word) : (s.enterGiet c a b).pins = s.pins := rfl
@[simp] theorem State.enterGiet_tick (c : Cause) (a : Word) (b : Option Word) : (s.enterGiet c a b).tick = s.tick := rfl
@[simp] theorem State.enterGiet_reg (c : Cause) (a : Word) (b : Option Word) (r : RegNum) : (s.enterGiet c a b).reg r = s.reg r := rfl

/-! ## returnFromGiet -/

@[simp] theorem State.returnFromGiet_gpr : (s.returnFromGiet).gpr = s.gpr := rfl
@[simp] theorem State.returnFromGiet_pc : (s.returnFromGiet).pc = s.epc := rfl
@[simp] theorem State.returnFromGiet_hi : (s.returnFromGiet).hi = s.hi := rfl
@[simp] theorem State.returnFromGiet_lo : (s.returnFromGiet).lo = s.lo := rfl
@[simp] theorem State.returnFromGiet_sr : (s.returnFromGiet).sr = { s.sr with exl := false } := rfl
@[simp] theorem State.returnFromGiet_cr : (s.returnFromGiet).cr = s.cr := rfl
@[simp] theorem State.returnFromGiet_epc : (s.returnFromGiet).epc = s.epc := rfl
@[simp] theorem State.returnFromGiet_bar : (s.returnFromGiet).bar = s.bar := rfl
@[simp] theorem State.returnFromGiet_procid : (s.returnFromGiet).procid = s.procid := rfl
@[simp] theorem State.returnFromGiet_cyclecount : (s.returnFromGiet).cyclecount = s.cyclecount := rfl
@[simp] theorem State.returnFromGiet_mem : (s.returnFromGiet).mem = s.mem := rfl
@[simp] theorem State.returnFromGiet_berr : (s.returnFromGiet).berr = s.berr := rfl
@[simp] theorem State.returnFromGiet_settings : (s.returnFromGiet).settings = s.settings := rfl
@[simp] theorem State.returnFromGiet_pins : (s.returnFromGiet).pins = s.pins := rfl
@[simp] theorem State.returnFromGiet_tick : (s.returnFromGiet).tick = s.tick := rfl
@[simp] theorem State.returnFromGiet_reg (r : RegNum) : (s.returnFromGiet).reg r = s.reg r := rfl

/-! ## countCycles -/

@[simp] theorem State.countCycles_gpr : (s.countCycles).gpr = s.gpr := rfl
@[simp] theorem State.countCycles_pc : (s.countCycles).pc = s.pc := rfl
@[simp] theorem State.countCycles_hi : (s.countCycles).hi = s.hi := rfl
@[simp] theorem State.countCycles_lo : (s.countCycles).lo = s.lo := rfl
@[simp] theorem State.countCycles_sr : (s.countCycles).sr = s.sr := rfl
@[simp] theorem State.countCycles_cr : (s.countCycles).cr = s.cr := rfl
@[simp] theorem State.countCycles_epc : (s.countCycles).epc = s.epc := rfl
@[simp] theorem State.countCycles_bar : (s.countCycles).bar = s.bar := rfl
@[simp] theorem State.countCycles_procid : (s.countCycles).procid = s.procid := rfl
@[simp] theorem State.countCycles_cyclecount : (s.countCycles).cyclecount = s.cyclecount + BitVec.ofNat 32 (Config.cyclesElapsed s.tick) := rfl
@[simp] theorem State.countCycles_mem : (s.countCycles).mem = s.mem := rfl
@[simp] theorem State.countCycles_berr : (s.countCycles).berr = s.berr := rfl
@[simp] theorem State.countCycles_settings : (s.countCycles).settings = s.settings := rfl
@[simp] theorem State.countCycles_pins : (s.countCycles).pins = s.pins := rfl
@[simp] theorem State.countCycles_tick : (s.countCycles).tick = s.tick := rfl
@[simp] theorem State.countCycles_reg (r : RegNum) : (s.countCycles).reg r = s.reg r := rfl
@[simp] theorem State.countCycles_privileged : (s.countCycles).privileged = s.privileged := rfl

/-! ## passBoundary -/

@[simp] theorem State.passBoundary_gpr : (s.passBoundary).gpr = s.gpr := rfl
@[simp] theorem State.passBoundary_pc : (s.passBoundary).pc = s.pc := rfl
@[simp] theorem State.passBoundary_hi : (s.passBoundary).hi = s.hi := rfl
@[simp] theorem State.passBoundary_lo : (s.passBoundary).lo = s.lo := rfl
@[simp] theorem State.passBoundary_sr : (s.passBoundary).sr = s.sr := rfl
@[simp] theorem State.passBoundary_cr : (s.passBoundary).cr = s.cr := rfl
@[simp] theorem State.passBoundary_epc : (s.passBoundary).epc = s.epc := rfl
@[simp] theorem State.passBoundary_bar : (s.passBoundary).bar = s.bar := rfl
@[simp] theorem State.passBoundary_procid : (s.passBoundary).procid = s.procid := rfl
@[simp] theorem State.passBoundary_cyclecount : (s.passBoundary).cyclecount = s.cyclecount := rfl
@[simp] theorem State.passBoundary_mem : (s.passBoundary).mem = s.mem := rfl
@[simp] theorem State.passBoundary_berr : (s.passBoundary).berr = s.berr := rfl
@[simp] theorem State.passBoundary_settings : (s.passBoundary).settings = s.settings := rfl
@[simp] theorem State.passBoundary_pins : (s.passBoundary).pins = s.pins.tail := rfl
@[simp] theorem State.passBoundary_tick : (s.passBoundary).tick = s.tick + 1 := rfl
@[simp] theorem State.passBoundary_reg (r : RegNum) : (s.passBoundary).reg r = s.reg r := rfl
@[simp] theorem State.passBoundary_privileged : (s.passBoundary).privileged = s.privileged := rfl

/-! ## sampleLines -/

@[simp] theorem State.sampleLines_gpr (l : BitVec 6) : (s.sampleLines l).gpr = s.gpr := rfl
@[simp] theorem State.sampleLines_pc (l : BitVec 6) : (s.sampleLines l).pc = s.pc := rfl
@[simp] theorem State.sampleLines_hi (l : BitVec 6) : (s.sampleLines l).hi = s.hi := rfl
@[simp] theorem State.sampleLines_lo (l : BitVec 6) : (s.sampleLines l).lo = s.lo := rfl
@[simp] theorem State.sampleLines_sr (l : BitVec 6) : (s.sampleLines l).sr = s.sr := rfl
@[simp] theorem State.sampleLines_cr (l : BitVec 6) : (s.sampleLines l).cr = { s.cr with irq := l } := rfl
@[simp] theorem State.sampleLines_epc (l : BitVec 6) : (s.sampleLines l).epc = s.epc := rfl
@[simp] theorem State.sampleLines_bar (l : BitVec 6) : (s.sampleLines l).bar = s.bar := rfl
@[simp] theorem State.sampleLines_procid (l : BitVec 6) : (s.sampleLines l).procid = s.procid := rfl
@[simp] theorem State.sampleLines_cyclecount (l : BitVec 6) : (s.sampleLines l).cyclecount = s.cyclecount := rfl
@[simp] theorem State.sampleLines_mem (l : BitVec 6) : (s.sampleLines l).mem = s.mem := rfl
@[simp] theorem State.sampleLines_berr (l : BitVec 6) : (s.sampleLines l).berr = s.berr := rfl
@[simp] theorem State.sampleLines_settings (l : BitVec 6) : (s.sampleLines l).settings = s.settings := rfl
@[simp] theorem State.sampleLines_pins (l : BitVec 6) : (s.sampleLines l).pins = s.pins := rfl
@[simp] theorem State.sampleLines_tick (l : BitVec 6) : (s.sampleLines l).tick = s.tick := rfl
@[simp] theorem State.sampleLines_reg (l : BitVec 6) (r : RegNum) : (s.sampleLines l).reg r = s.reg r := rfl
@[simp] theorem State.sampleLines_privileged (l : BitVec 6) : (s.sampleLines l).privileged = s.privileged := rfl

/-! ## applyReset -/

@[simp] theorem State.applyReset_gpr : (s.applyReset).gpr = s.gpr := rfl
@[simp] theorem State.applyReset_pc : (s.applyReset).pc = Config.bootEntry := rfl
@[simp] theorem State.applyReset_hi : (s.applyReset).hi = s.hi := rfl
@[simp] theorem State.applyReset_lo : (s.applyReset).lo = s.lo := rfl
@[simp] theorem State.applyReset_sr : (s.applyReset).sr = StatusReg.afterReset := rfl
@[simp] theorem State.applyReset_cr : (s.applyReset).cr = s.cr := rfl
@[simp] theorem State.applyReset_epc : (s.applyReset).epc = s.epc := rfl
@[simp] theorem State.applyReset_bar : (s.applyReset).bar = s.bar := rfl
@[simp] theorem State.applyReset_procid : (s.applyReset).procid = s.procid := rfl
@[simp] theorem State.applyReset_cyclecount : (s.applyReset).cyclecount = 0#32 := rfl
@[simp] theorem State.applyReset_mem : (s.applyReset).mem = s.mem := rfl
@[simp] theorem State.applyReset_berr : (s.applyReset).berr = s.berr := rfl
@[simp] theorem State.applyReset_settings : (s.applyReset).settings = s.settings := rfl
@[simp] theorem State.applyReset_pins : (s.applyReset).pins = s.pins := rfl
@[simp] theorem State.applyReset_tick : (s.applyReset).tick = s.tick := rfl
@[simp] theorem State.applyReset_reg (r : RegNum) : (s.applyReset).reg r = s.reg r := rfl

/-! ## placeWord -/

@[simp] theorem State.placeWord_gpr (w : Word) : (s.placeWord w).gpr = s.gpr := rfl
@[simp] theorem State.placeWord_pc (w : Word) : (s.placeWord w).pc = s.pc := rfl
@[simp] theorem State.placeWord_hi (w : Word) : (s.placeWord w).hi = s.hi := rfl
@[simp] theorem State.placeWord_lo (w : Word) : (s.placeWord w).lo = s.lo := rfl
@[simp] theorem State.placeWord_sr (w : Word) : (s.placeWord w).sr = s.sr := rfl
@[simp] theorem State.placeWord_cr (w : Word) : (s.placeWord w).cr = s.cr := rfl
@[simp] theorem State.placeWord_epc (w : Word) : (s.placeWord w).epc = s.epc := rfl
@[simp] theorem State.placeWord_bar (w : Word) : (s.placeWord w).bar = s.bar := rfl
@[simp] theorem State.placeWord_procid (w : Word) : (s.placeWord w).procid = s.procid := rfl
@[simp] theorem State.placeWord_cyclecount (w : Word) : (s.placeWord w).cyclecount = s.cyclecount := rfl
@[simp] theorem State.placeWord_mem (w : Word) : (s.placeWord w).mem = s.mem.setWord s.pc w := rfl
@[simp] theorem State.placeWord_berr (w : Word) : (s.placeWord w).berr = s.berr := rfl
@[simp] theorem State.placeWord_settings (w : Word) : (s.placeWord w).settings = s.settings := rfl
@[simp] theorem State.placeWord_pins (w : Word) : (s.placeWord w).pins = s.pins := rfl
@[simp] theorem State.placeWord_tick (w : Word) : (s.placeWord w).tick = s.tick := rfl
@[simp] theorem State.placeWord_reg (w : Word) (r : RegNum) : (s.placeWord w).reg r = s.reg r := rfl
@[simp] theorem State.placeWord_privileged (w : Word) : (s.placeWord w).privileged = s.privileged := rfl

/-! ## Updates in other words -/

theorem State.nextPc_eq : s.nextPc = s.pc + 4#32 := rfl

theorem State.raise_eq (e : Exc) : s.raise e = s.enterGiet e.cause s.pc e.badAddr := rfl

theorem State.enterSystemCall_eq (c : Cause) :
    s.enterSystemCall c = s.enterGiet c (s.pc + 4#32) none := rfl

theorem State.enterInterrupt_eq : s.enterInterrupt = s.enterGiet .int s.pc none := rfl

/-- A trap always leaves a privileged state (R310, R330). -/
@[simp] theorem State.enterGiet_privileged (c : Cause) (a : Word) (b : Option Word) :
    (s.enterGiet c a b).privileged = true := by simp [State.privileged]

/-- RESET always leaves a privileged state (R360, R330). -/
@[simp] theorem State.applyReset_privileged : s.applyReset.privileged = true := rfl

end Sys2Proof.Machine
end

