-- ==== Sys2Proof/Laws/Registers.lean ====
section
/-! SUPPORT. The laws of the general registers: R0 reads as zero, and a read after a write. -/

namespace Sys2Proof.Machine

@[simp] theorem readGpr_zero (g : Vector Word 31) : readGpr g 0#5 = 0#32 := rfl

@[simp] theorem writeGpr_zero (g : Vector Word 31) (v : Word) : writeGpr g 0#5 v = g := rfl

theorem toNat_pos_of_ne_zero {i : RegNum} (h : i ≠ 0#5) : 0 < i.toNat :=
  Nat.pos_of_ne_zero fun hz => h (BitVec.eq_of_toNat_eq hz)

theorem readGpr_writeGpr (g : Vector Word 31) (i j : RegNum) (v : Word) :
    readGpr (writeGpr g i v) j = if j = i ∧ i ≠ 0#5 then v else readGpr g j := by
  by_cases hi : i = 0#5
  · simp [hi]
  by_cases hj : j = 0#5
  · subst hj
    simp [eq_comm, hi]
  have hi' := toNat_pos_of_ne_zero hi
  have hj' := toNat_pos_of_ne_zero hj
  by_cases hij : j = i
  · subst hij
    simp [readGpr, writeGpr, hi]
  · have hne : i.toNat - 1 ≠ j.toNat - 1 := fun h =>
      hij (BitVec.eq_of_toNat_eq (by omega))
    simp [readGpr, writeGpr, hi, hj, hij, hne]

/-- R0 reads as zero in every state (R21). -/
@[simp] theorem State.reg_zero (s : State) : s.reg 0#5 = 0#32 := rfl

/-- A read after a write (R20, R21). -/
theorem State.reg_setReg (s : State) (i j : RegNum) (v : Word) :
    (s.setReg i v).reg j = if j = i ∧ i ≠ 0#5 then v else s.reg j :=
  readGpr_writeGpr s.gpr i j v

/-- A write to R0 changes nothing (R21). -/
@[simp] theorem State.setReg_zero (s : State) (v : Word) : s.setReg 0#5 v = s := rfl

end Sys2Proof.Machine
end

