-- ==== Sys2Proof/Laws/Ops.lean ====
section
/-! SUPPORT. One lemma per shared operation that says once everything it can do; later proofs cite these
and unfold no operation. -/

namespace Sys2Proof.Machine

variable {s t : State}

/-! ## Completing -/

theorem writeNext_next {rd : RegNum} {v : Word} :
    s.writeNext rd v = .next t ↔ t = (s.setReg rd v).advance := by
  simp [State.writeNext, eq_comm]

theorem writeUnlessOverflow_next {rd : RegNum} {o : Bool} {v : Word} :
    s.writeUnlessOverflow rd o v = .next t ↔
      (o = true ∧ t = s.raise .ovf) ∨ (o = false ∧ t = (s.setReg rd v).advance) := by
  cases o <;> simp [State.writeUnlessOverflow, State.writeNext, eq_comm]

theorem writeHiLo_next {h l : Word} :
    s.writeHiLo h l = .next t ↔ t = { s with hi := h, lo := l, pc := s.pc + 4#32 } := by
  simp [State.writeHiLo, State.advance, State.nextPc, eq_comm]

theorem branchIf_next {c : Bool} {imd16 : BitVec 16} :
    s.branchIf c imd16 = .next t ↔ t = s.jumpTo (if c then s.branchTarget imd16 else s.nextPc) := by
  simp [State.branchIf, eq_comm]

theorem branchLinkIf_next {c : Bool} {imd16 : BitVec 16} :
    s.branchLinkIf c imd16 = .next t ↔
      t = (s.setReg Config.linkReg s.nextPc).jumpTo (if c then s.branchTarget imd16 else s.nextPc) := by
  simp [State.branchLinkIf, eq_comm]

theorem ifPrivileged_next {r : Result} :
    s.ifPrivileged r = .next t ↔
      (s.privileged = true ∧ r = .next t) ∨ (s.privileged = false ∧ t = s.raise .cpu) := by
  cases h : s.privileged <;> simp [State.ifPrivileged, h, eq_comm]

/-! ## Memory accesses -/

/-- The access is permitted: the address is right and the memory system raises no BERR. -/
theorem accessExc_none {a : Word} {w : Width} {k : AccessKind} :
    s.accessExc a w k = none ↔ s.addressOk a w = true ∧ s.busError a w k = false := by
  cases h1 : s.addressOk a w <;> cases h2 : s.busError a w k <;> simp [State.accessExc, h1, h2]

/-- The access raises an exception: the address exception, or else the bus error. -/
theorem accessExc_some {a : Word} {w : Width} {k : AccessKind} {e : Exc} :
    s.accessExc a w k = some e ↔
      (s.addressOk a w = false ∧ e = k.addressError a) ∨
        (s.addressOk a w = true ∧ s.busError a w k = true ∧ e = k.busError) := by
  cases h1 : s.addressOk a w <;> cases h2 : s.busError a w k <;>
    simp [State.accessExc, h1, h2, eq_comm]

theorem addressOk_iff {a : Word} {w : Width} :
    s.addressOk a w = true ↔
      a.toNat % w.bytes = 0 ∧ (a.getLsbD 31 = true → s.privileged = true) := by
  unfold State.addressOk Width.aligned inSystemSegment
  generalize a.getLsbD 31 = b
  cases b <;> simp

theorem loadInto_next {rt : RegNum} {a : Word} {w : Width} {v : Word} :
    s.loadInto rt a w v = .next t ↔
      (∃ e, s.accessExc a w .load = some e ∧ t = s.raise e) ∨
        (s.accessExc a w .load = none ∧ t = (s.setReg rt v).advance) := by
  cases h : s.accessExc a w .load <;> simp [State.loadInto, State.writeNext, h, eq_comm]

theorem storeInto_next {a : Word} {w : Width} {m : Memory} :
    s.storeInto a w m = .next t ↔
      (∃ e, s.accessExc a w .store = some e ∧ t = s.raise e) ∨
        (s.accessExc a w .store = none ∧ t = { s with mem := m, pc := s.pc + 4#32 }) := by
  cases h : s.accessExc a w .store <;>
    simp [State.storeInto, State.advance, State.nextPc, h, eq_comm]

/-! ## The CP0 registers -/

/-- MFC0 in supervisor mode writes one general register, and for CYCLECOUNT moves the count on; for an
undefined number it may raise RI. -/
theorem readCp0_next {rt rd : RegNum} (h : s.readCp0 rt rd = .next t) :
    t = s.raise .ri ∨
      ∃ v c, t = { s with gpr := writeGpr s.gpr rt v, cyclecount := c, pc := s.pc + 4#32 } ∧
        (rd ≠ 16#5 → c = s.cyclecount) := by
  unfold State.readCp0 at h
  split at h
  case h_6 => exact .inr ⟨_, s.countCycles.cyclecount, writeNext_next.mp h, fun hne => absurd rfl hne⟩
  case h_7 =>
    unfold State.readUndefinedCp0 at h
    split at h
    · cases h
    · exact .inr ⟨_, s.cyclecount, writeNext_next.mp h, fun _ => rfl⟩
    · injection h with h
      exact .inl h.symm
  all_goals exact .inr ⟨_, s.cyclecount, writeNext_next.mp h, fun _ => rfl⟩

/-- One CP0 register has been written with `v`, as MTC0 writes it, or none has (R264). -/
def Cp0Written (s : State) (rd : RegNum) (v : Word) (t : State) : Prop :=
  (rd = 8#5 ∧ t = { s with bar := v, pc := s.pc + 4#32 }) ∨
  (rd = 12#5 ∧ t = { s with sr := StatusReg.ofWord v, pc := s.pc + 4#32 }) ∨
  (rd = 13#5 ∧ t = { s with cr := { s.cr with swi := v.extractLsb' 8 2 }, pc := s.pc + 4#32 }) ∨
  (rd = 14#5 ∧ t = { s with epc := v, pc := s.pc + 4#32 }) ∨
  t = { s with pc := s.pc + 4#32 }

/-- MTC0 in supervisor mode writes one CP0 register, or nothing; for an undefined number it may raise RI. -/
theorem writeCp0_next {rd : RegNum} {v : Word} (h : s.writeCp0 rd v = .next t) :
    t = s.raise .ri ∨ Cp0Written s rd v t := by
  unfold State.writeCp0 at h
  split at h
  case h_7 =>
    unfold State.writeUndefinedCp0 at h
    split at h
    · cases h
    · injection h with h
      exact .inr (.inr (.inr (.inr (.inr h.symm))))
    · injection h with h
      exact .inl h.symm
  all_goals injection h with h; subst h
  · exact .inr (.inl ⟨rfl, rfl⟩)
  · exact .inr (.inr (.inl ⟨rfl, rfl⟩))
  · exact .inr (.inr (.inr (.inl ⟨rfl, rfl⟩)))
  · exact .inr (.inr (.inr (.inr (.inl ⟨rfl, rfl⟩))))
  all_goals exact .inr (.inr (.inr (.inr (.inr rfl))))

/-- A number that is none of the six is undefined (R29). -/
theorem definedCp0_false {rd : RegNum} (h8 : rd ≠ 8#5) (h12 : rd ≠ 12#5) (h13 : rd ≠ 13#5) (h14 : rd ≠ 14#5)
    (h15 : rd ≠ 15#5) (h16 : rd ≠ 16#5) : definedCp0 rd = false := by
  simp [definedCp0, h8, h12, h13, h14, h15, h16]

/-- Only a machine with CP0_UNDEF = refuse refuses MFC0, and only of an undefined number (R41, D14). -/
theorem readCp0_completes {rt rd : RegNum}
    (h : s.settings.cp0Undef = .refuse → definedCp0 rd = true) : ∃ t, s.readCp0 rt rd = .next t := by
  unfold State.readCp0
  split
  case h_7 h8 h12 h13 h14 h15 h16 =>
    unfold State.readUndefinedCp0
    split
    · rename_i hs
      exact absurd (h hs) (Bool.eq_false_iff.mp (definedCp0_false h8 h12 h13 h14 h15 h16))
    all_goals exact ⟨_, rfl⟩
  all_goals exact ⟨_, rfl⟩

/-- Only a machine with CP0_UNDEF = refuse refuses MTC0, and only to an undefined number (R41, D14). -/
theorem writeCp0_completes {rd : RegNum} {v : Word}
    (h : s.settings.cp0Undef = .refuse → definedCp0 rd = true) : ∃ t, s.writeCp0 rd v = .next t := by
  unfold State.writeCp0
  split
  case h_7 h8 h12 h13 h14 h15 h16 =>
    unfold State.writeUndefinedCp0
    split
    · rename_i hs
      exact absurd (h hs) (Bool.eq_false_iff.mp (definedCp0_false h8 h12 h13 h14 h15 h16))
    all_goals exact ⟨_, rfl⟩
  all_goals exact ⟨_, rfl⟩

/-! ## The boundary, and fetching -/

theorem boundary_ended {u : State} :
    s.boundary = .ended u ↔
      (s.pinsNow.reset = true ∧ u = s.passBoundary.applyReset) ∨
        (s.pinsNow.reset = false ∧
          (s.passBoundary.sampleLines s.pinsNow.irqLines).interruptTaken = true ∧
          u = (s.passBoundary.sampleLines s.pinsNow.irqLines).enterInterrupt) := by
  cases h1 : s.pinsNow.reset <;>
    cases h2 : (s.passBoundary.sampleLines s.pinsNow.irqLines).interruptTaken <;>
    simp [State.boundary, h1, h2, eq_comm]

theorem boundary_runs {u : State} :
    s.boundary = .runs u ↔
      s.pinsNow.reset = false ∧
        (s.passBoundary.sampleLines s.pinsNow.irqLines).interruptTaken = false ∧
        u = s.passBoundary.sampleLines s.pinsNow.irqLines := by
  cases h1 : s.pinsNow.reset <;>
    cases h2 : (s.passBoundary.sampleLines s.pinsNow.irqLines).interruptTaken <;>
    simp [State.boundary, h1, h2, eq_comm]

/-- The four bytes at an address decode as the word at that address does (R63, R65). -/
theorem decode_wordBytes (strict : Bool) (m : Memory) (a : Word) :
    (decode strict (m.wordBytes a)).map Prod.fst = decodeWith strict (m.wordAt a) := by
  change (decode strict [m.byteAt a, m.byteAt (a + 1#32), m.byteAt (a + 2#32), m.byteAt (a + 3#32)]).map Prod.fst = _
  simp only [decode, show wordOfBytes (m.byteAt a) (m.byteAt (a + 1#32)) (m.byteAt (a + 2#32))
    (m.byteAt (a + 3#32)) = m.wordAt a from rfl]
  cases decodeWith strict (m.wordAt a) <;> rfl

/-- What fetching gives: the exception of the fetch, or what the word at pc decodes to. -/
theorem fetch_eq (s : State) :
    s.fetch = match s.accessExc s.pc .word .fetch with
      | some e => .trap e
      | none => Fetched.ofDecode (decodeWith s.settings.decodeStrict (s.mem.wordAt s.pc)) := by
  unfold State.fetch
  cases s.accessExc s.pc .word .fetch with
  | some e => rfl
  | none => simp only [decode_wordBytes]

end Sys2Proof.Machine
end

