-- ==== Sys2Proof/Laws/PerInstr.lean ====
section
/-! SUPPORT. A law of every instruction, as syntax: the word an instruction encodes to has the fixed bits of
its row in spec/opcode_table.json. One lemma per constructor. -/

namespace Sys2Proof.Laws

/-- The word of `i` has the value `match` under the `mask` of its row (R115). -/
def WordHasRowBits.Statement (i : Instr) : Prop := encode i &&& i.row.1 = i.row.2

/-- The mask of the family SPECIAL: OPCOD and FUNC. -/
theorem special_mask (rs rt rd : RegNum) (sh : BitVec 5) (f : BitVec 6) :
    special rs rt rd sh f &&& 0xFC00003F#32 = special 0 0 0 0 f := by
  rw [special, show (0xFC00003F#32 : Word) = formatR 63#6 0 0 0 0 63#6 from by decide, formatR_and]
  simp only [BitVec.and_zero, BitVec.ofNat_eq_ofNat]
  congr 1
  exact BitVec.and_allOnes

/-- The mask of most Format I rows: OPCOD. -/
theorem formatI_mask (op : BitVec 6) (rs rt : RegNum) (imd16 : BitVec 16) :
    formatI op rs rt imd16 &&& 0xFC000000#32 = formatI op 0 0 0 := by
  rw [show (0xFC000000#32 : Word) = formatI 63#6 0 0 0 from by decide, formatI_and]
  simp only [BitVec.and_zero, BitVec.ofNat_eq_ofNat]
  congr 1
  exact BitVec.and_allOnes

/-- The mask of the family BCOND: OPCOD and bits 20 and 16. -/
theorem bcond_mask (op : BitVec 6) (rs rt : RegNum) (imd16 : BitVec 16) :
    formatI op rs rt imd16 &&& 0xFC110000#32 = formatI op 0 (rt &&& 0b10001#5) 0 := by
  rw [show (0xFC110000#32 : Word) = formatI 63#6 0 0b10001#5 0 from by decide, formatI_and]
  simp only [BitVec.and_zero, BitVec.ofNat_eq_ofNat]
  congr 1
  exact BitVec.and_allOnes

/-- The mask of Format J rows: OPCOD. -/
theorem formatJ_mask (op : BitVec 6) (imd26 : BitVec 26) :
    formatJ op imd26 &&& 0xFC000000#32 = formatJ op 0 := by
  rw [show (0xFC000000#32 : Word) = formatJ 63#6 0 from by decide, formatJ_and]
  simp only [BitVec.and_zero, BitVec.ofNat_eq_ofNat]
  congr 1
  exact BitVec.and_allOnes

/-- The mask of MFC0 and MTC0: OPCOD and bits 25 and 23. -/
theorem copro_mask (op : BitVec 6) (rs rt rd : RegNum) (sh : BitVec 5) (f : BitVec 6) :
    formatR op rs rt rd sh f &&& 0xFE800000#32 = formatR op (rs &&& 0b10100#5) 0 0 0 0 := by
  rw [show (0xFE800000#32 : Word) = formatR 63#6 0b10100#5 0 0 0 0 from by decide, formatR_and]
  simp only [BitVec.and_zero, BitVec.ofNat_eq_ofNat]
  congr 1
  exact BitVec.and_allOnes

theorem WordHasRowBits.sll (rt rd : RegNum) (sh : BitVec 5) :
    Statement (.sll rt rd sh) := (special_mask ..).trans rfl

theorem WordHasRowBits.srl (rt rd : RegNum) (sh : BitVec 5) :
    Statement (.srl rt rd sh) := (special_mask ..).trans rfl

theorem WordHasRowBits.sra (rt rd : RegNum) (sh : BitVec 5) :
    Statement (.sra rt rd sh) := (special_mask ..).trans rfl

theorem WordHasRowBits.sllv (rs rt rd : RegNum) :
    Statement (.sllv rs rt rd) := (special_mask ..).trans rfl

theorem WordHasRowBits.srlv (rs rt rd : RegNum) :
    Statement (.srlv rs rt rd) := (special_mask ..).trans rfl

theorem WordHasRowBits.srav (rs rt rd : RegNum) :
    Statement (.srav rs rt rd) := (special_mask ..).trans rfl

theorem WordHasRowBits.jr (rs : RegNum) :
    Statement (.jr rs) := (special_mask ..).trans rfl

theorem WordHasRowBits.jalr (rs rd : RegNum) :
    Statement (.jalr rs rd) := (special_mask ..).trans rfl

theorem WordHasRowBits.syscall :
    Statement (.syscall) := (special_mask ..).trans rfl

theorem WordHasRowBits.breakpoint :
    Statement (.breakpoint) := (special_mask ..).trans rfl

theorem WordHasRowBits.mfhi (rd : RegNum) :
    Statement (.mfhi rd) := (special_mask ..).trans rfl

theorem WordHasRowBits.mthi (rs : RegNum) :
    Statement (.mthi rs) := (special_mask ..).trans rfl

theorem WordHasRowBits.mflo (rd : RegNum) :
    Statement (.mflo rd) := (special_mask ..).trans rfl

theorem WordHasRowBits.mtlo (rs : RegNum) :
    Statement (.mtlo rs) := (special_mask ..).trans rfl

theorem WordHasRowBits.mult (rs rt : RegNum) :
    Statement (.mult rs rt) := (special_mask ..).trans rfl

theorem WordHasRowBits.multu (rs rt : RegNum) :
    Statement (.multu rs rt) := (special_mask ..).trans rfl

theorem WordHasRowBits.div (rs rt : RegNum) :
    Statement (.div rs rt) := (special_mask ..).trans rfl

theorem WordHasRowBits.divu (rs rt : RegNum) :
    Statement (.divu rs rt) := (special_mask ..).trans rfl

theorem WordHasRowBits.add (rs rt rd : RegNum) :
    Statement (.add rs rt rd) := (special_mask ..).trans rfl

theorem WordHasRowBits.addu (rs rt rd : RegNum) :
    Statement (.addu rs rt rd) := (special_mask ..).trans rfl

theorem WordHasRowBits.sub (rs rt rd : RegNum) :
    Statement (.sub rs rt rd) := (special_mask ..).trans rfl

theorem WordHasRowBits.subu (rs rt rd : RegNum) :
    Statement (.subu rs rt rd) := (special_mask ..).trans rfl

theorem WordHasRowBits.and (rs rt rd : RegNum) :
    Statement (.and rs rt rd) := (special_mask ..).trans rfl

theorem WordHasRowBits.or (rs rt rd : RegNum) :
    Statement (.or rs rt rd) := (special_mask ..).trans rfl

theorem WordHasRowBits.xor (rs rt rd : RegNum) :
    Statement (.xor rs rt rd) := (special_mask ..).trans rfl

theorem WordHasRowBits.nor (rs rt rd : RegNum) :
    Statement (.nor rs rt rd) := (special_mask ..).trans rfl

theorem WordHasRowBits.slt (rs rt rd : RegNum) :
    Statement (.slt rs rt rd) := (special_mask ..).trans rfl

theorem WordHasRowBits.sltu (rs rt rd : RegNum) :
    Statement (.sltu rs rt rd) := (special_mask ..).trans rfl

theorem WordHasRowBits.bltz (rs : RegNum) (imd16 : BitVec 16) :
    Statement (.bltz rs imd16) := (bcond_mask ..).trans rfl

theorem WordHasRowBits.bgez (rs : RegNum) (imd16 : BitVec 16) :
    Statement (.bgez rs imd16) := (bcond_mask ..).trans rfl

theorem WordHasRowBits.bltzal (rs : RegNum) (imd16 : BitVec 16) :
    Statement (.bltzal rs imd16) := (bcond_mask ..).trans rfl

theorem WordHasRowBits.bgezal (rs : RegNum) (imd16 : BitVec 16) :
    Statement (.bgezal rs imd16) := (bcond_mask ..).trans rfl

theorem WordHasRowBits.j (imd26 : BitVec 26) :
    Statement (.j imd26) := (formatJ_mask ..).trans rfl

theorem WordHasRowBits.jal (imd26 : BitVec 26) :
    Statement (.jal imd26) := (formatJ_mask ..).trans rfl

theorem WordHasRowBits.beq (rs rt : RegNum) (imd16 : BitVec 16) :
    Statement (.beq rs rt imd16) := (formatI_mask ..).trans rfl

theorem WordHasRowBits.bne (rs rt : RegNum) (imd16 : BitVec 16) :
    Statement (.bne rs rt imd16) := (formatI_mask ..).trans rfl

theorem WordHasRowBits.blez (rs : RegNum) (imd16 : BitVec 16) :
    Statement (.blez rs imd16) := (formatI_mask ..).trans rfl

theorem WordHasRowBits.bgtz (rs : RegNum) (imd16 : BitVec 16) :
    Statement (.bgtz rs imd16) := (formatI_mask ..).trans rfl

theorem WordHasRowBits.addi (rs rt : RegNum) (imd16 : BitVec 16) :
    Statement (.addi rs rt imd16) := (formatI_mask ..).trans rfl

theorem WordHasRowBits.addiu (rs rt : RegNum) (imd16 : BitVec 16) :
    Statement (.addiu rs rt imd16) := (formatI_mask ..).trans rfl

theorem WordHasRowBits.slti (rs rt : RegNum) (imd16 : BitVec 16) :
    Statement (.slti rs rt imd16) := (formatI_mask ..).trans rfl

theorem WordHasRowBits.sltiu (rs rt : RegNum) (imd16 : BitVec 16) :
    Statement (.sltiu rs rt imd16) := (formatI_mask ..).trans rfl

theorem WordHasRowBits.andi (rs rt : RegNum) (imd16 : BitVec 16) :
    Statement (.andi rs rt imd16) := (formatI_mask ..).trans rfl

theorem WordHasRowBits.ori (rs rt : RegNum) (imd16 : BitVec 16) :
    Statement (.ori rs rt imd16) := (formatI_mask ..).trans rfl

theorem WordHasRowBits.xori (rs rt : RegNum) (imd16 : BitVec 16) :
    Statement (.xori rs rt imd16) := (formatI_mask ..).trans rfl

theorem WordHasRowBits.lui (rt : RegNum) (imd16 : BitVec 16) :
    Statement (.lui rt imd16) := (formatI_mask ..).trans rfl

theorem WordHasRowBits.mfc0 (rt rd : RegNum) :
    Statement (.mfc0 rt rd) := (copro_mask ..).trans rfl

theorem WordHasRowBits.mtc0 (rt rd : RegNum) :
    Statement (.mtc0 rt rd) := (copro_mask ..).trans rfl

theorem WordHasRowBits.eret :
    Statement (.eret) := rfl

theorem WordHasRowBits.lb (rs rt : RegNum) (imd16 : BitVec 16) :
    Statement (.lb rs rt imd16) := (formatI_mask ..).trans rfl

theorem WordHasRowBits.lh (rs rt : RegNum) (imd16 : BitVec 16) :
    Statement (.lh rs rt imd16) := (formatI_mask ..).trans rfl

theorem WordHasRowBits.lw (rs rt : RegNum) (imd16 : BitVec 16) :
    Statement (.lw rs rt imd16) := (formatI_mask ..).trans rfl

theorem WordHasRowBits.lbu (rs rt : RegNum) (imd16 : BitVec 16) :
    Statement (.lbu rs rt imd16) := (formatI_mask ..).trans rfl

theorem WordHasRowBits.lhu (rs rt : RegNum) (imd16 : BitVec 16) :
    Statement (.lhu rs rt imd16) := (formatI_mask ..).trans rfl

theorem WordHasRowBits.sb (rs rt : RegNum) (imd16 : BitVec 16) :
    Statement (.sb rs rt imd16) := (formatI_mask ..).trans rfl

theorem WordHasRowBits.sh (rs rt : RegNum) (imd16 : BitVec 16) :
    Statement (.sh rs rt imd16) := (formatI_mask ..).trans rfl

theorem WordHasRowBits.sw (rs rt : RegNum) (imd16 : BitVec 16) :
    Statement (.sw rs rt imd16) := (formatI_mask ..).trans rfl

end Sys2Proof.Laws
end

