-- ==== Sys2Proof/Laws/Run.lean ====
section
/-! SUPPORT. The state a launch makes, field by field, and what one step of a run does. -/

namespace Sys2Proof.Machine

/-! ## powerOn -/

variable (l : Launch)

@[simp] theorem Launch.powerOn_gpr : l.powerOn.gpr = State.reset.gpr := rfl
@[simp] theorem Launch.powerOn_pc : l.powerOn.pc = Config.bootEntry := rfl
@[simp] theorem Launch.powerOn_sr : l.powerOn.sr = StatusReg.afterReset := rfl
@[simp] theorem Launch.powerOn_cr : l.powerOn.cr = State.reset.cr := rfl
@[simp] theorem Launch.powerOn_cyclecount : l.powerOn.cyclecount = 0#32 := rfl
@[simp] theorem Launch.powerOn_procid : l.powerOn.procid = l.procid := rfl
@[simp] theorem Launch.powerOn_mem : l.powerOn.mem = l.initialMemory := rfl
@[simp] theorem Launch.powerOn_settings : l.powerOn.settings = l.settings := rfl
@[simp] theorem Launch.powerOn_berr : l.powerOn.berr = l.busError := rfl
@[simp] theorem Launch.powerOn_pins : l.powerOn.pins = l.pins := rfl

/-! ## stepTimes and runUntil -/

variable {halt : State → Bool} {s t : State}

/-- After one step that has a next state come the other steps. -/
theorem stepTimes_next (n : Nat) (hs : step s = .next t) : stepTimes (n + 1) s = stepTimes n t := by
  simp [stepTimes, hs]

/-- After a refused step there is no next state. -/
theorem stepTimes_refused {r : Refusal} (n : Nat) (hs : step s = .refused r) :
    stepTimes (n + 1) s = .refused r := by
  simp [stepTimes, hs]

/-- A run is over at once where `HALT` holds. -/
theorem runUntil_halted (n : Nat) (h : halt s = true) : runUntil halt n s = .halted s := by
  cases n <;> simp [runUntil, h]

/-- A run with no step left goes on where `HALT` does not hold. -/
theorem runUntil_zero (h : halt s = false) : runUntil halt 0 s = .going s := by
  simp [runUntil, h]

/-- Where `HALT` does not hold, a run goes on from the next state. -/
theorem runUntil_next (n : Nat) (h : halt s = false) (hs : step s = .next t) :
    runUntil halt (n + 1) s = runUntil halt n t := by
  simp [runUntil, h, hs]

/-- Where `HALT` does not hold and the step is refused, so is the run. -/
theorem runUntil_refused {r : Refusal} (n : Nat) (h : halt s = false) (hs : step s = .refused r) :
    runUntil halt (n + 1) s = .refused r := by
  simp [runUntil, h, hs]

end Sys2Proof.Machine
end

