-- ==== Sys2Proof/Laws/Safety.lean ====
section
/-! SUPPORT. The terms of Safety.lean against the operations: modes, permitted accesses, the frames of the
ways an instruction completes, and of trap entry. -/

namespace Sys2Proof.Machine

variable {s t : State}

/-! ## Modes and accesses -/

/-- User mode is the opposite of `privileged()` (R330). -/
theorem userMode_eq (s : State) : s.userMode = !s.privileged := by
  unfold State.userMode State.privileged
  cases s.sr.um <;> cases s.sr.exl <;> cases s.sr.erl <;> rfl

/-- Bit 31 of an address is 1 exactly in the upper half of the space (R69). -/
theorem inSystemSegment_iff (a : Word) : inSystemSegment a = true ↔ 0x80000000 ≤ a.toNat := by
  have h := a.isLt
  unfold inSystemSegment BitVec.getLsbD
  rw [Nat.testBit_eq_decide_div_mod_eq, decide_eq_true_iff]
  omega

theorem addressOk_iff_legal {a : Word} {w : Width} : s.addressOk a w = true ↔ AddressLegal s a w := by
  rw [addressOk_iff, AddressLegal, userMode_eq, ← inSystemSegment_iff]
  simp [inSystemSegment]

theorem accessExc_none_iff {a : Word} {w : Width} {k : AccessKind} :
    s.accessExc a w k = none ↔ AccessPermitted s a w k := by
  rw [accessExc_none, addressOk_iff_legal]

/-- An illegal address raises the address exception, whatever the memory system would answer (R71). -/
theorem accessExc_illegal {a : Word} {w : Width} {k : AccessKind} (h : ¬ AddressLegal s a w) :
    s.accessExc a w k = some (k.addressError a) :=
  accessExc_some.mpr (.inl ⟨Bool.eq_false_iff.mpr fun hok => h (addressOk_iff_legal.mp hok), rfl⟩)

/-- A legal address that gets BERR raises the bus error (R71, R72). -/
theorem accessExc_busError {a : Word} {w : Width} {k : AccessKind} (h : AddressLegal s a w)
    (hb : s.busError a w k = true) : s.accessExc a w k = some k.busError :=
  accessExc_some.mpr (.inr ⟨addressOk_iff_legal.mpr h, hb, rfl⟩)

/-! ## The boundary -/

@[simp] theorem sampled_gpr (s : State) : s.sampled.gpr = s.gpr := rfl
@[simp] theorem sampled_pc (s : State) : s.sampled.pc = s.pc := rfl
@[simp] theorem sampled_hi (s : State) : s.sampled.hi = s.hi := rfl
@[simp] theorem sampled_lo (s : State) : s.sampled.lo = s.lo := rfl
@[simp] theorem sampled_sr (s : State) : s.sampled.sr = s.sr := rfl
@[simp] theorem sampled_cr (s : State) : s.sampled.cr = { s.cr with irq := s.pinsNow.irqLines } := rfl
@[simp] theorem sampled_epc (s : State) : s.sampled.epc = s.epc := rfl
@[simp] theorem sampled_bar (s : State) : s.sampled.bar = s.bar := rfl
@[simp] theorem sampled_procid (s : State) : s.sampled.procid = s.procid := rfl
@[simp] theorem sampled_cyclecount (s : State) : s.sampled.cyclecount = s.cyclecount := rfl
@[simp] theorem sampled_mem (s : State) : s.sampled.mem = s.mem := rfl
@[simp] theorem sampled_settings (s : State) : s.sampled.settings = s.settings := rfl
@[simp] theorem sampled_berr (s : State) : s.sampled.berr = s.berr := rfl
@[simp] theorem sampled_reg (s : State) (i : RegNum) : s.sampled.reg i = s.reg i := rfl
@[simp] theorem sampled_privileged (s : State) : s.sampled.privileged = s.privileged := rfl
@[simp] theorem sampled_userMode (s : State) : s.sampled.userMode = s.userMode := rfl

/-- An undisturbed boundary lets the instruction at pc run, in the sampled state. -/
theorem boundary_of_undisturbed (h : s.undisturbed = true) : s.boundary = .runs s.sampled := by
  rw [boundary_runs]
  unfold State.undisturbed at h
  rw [Bool.and_eq_true, Bool.not_eq_true', Bool.not_eq_true'] at h
  exact ⟨h.1, h.2, rfl⟩

/-- When the instruction at pc runs, the boundary was undisturbed and left the sampled state. -/
theorem undisturbed_of_boundary {u : State} (h : s.boundary = .runs u) :
    s.undisturbed = true ∧ u = s.sampled := by
  obtain ⟨h1, h2, rfl⟩ := boundary_runs.mp h
  refine ⟨?_, rfl⟩
  unfold State.undisturbed
  rw [Bool.and_eq_true, Bool.not_eq_true', Bool.not_eq_true']
  exact ⟨h1, h2⟩

/-! ## Frames -/

/-- The frame of writing one general register and pc. -/
theorem onlyWritesReg_setReg (s : State) (rd : RegNum) (v target : Word) :
    OnlyWritesReg s rd v target ((s.setReg rd v).jumpTo target) :=
  ⟨rfl, fun i => State.reg_setReg s rd i v, ⟨rfl, rfl⟩, ⟨rfl, rfl, rfl, rfl, rfl⟩, fun _ => rfl,
    ⟨rfl, rfl, rfl, rfl, rfl⟩⟩

/-- An instruction that ends in `writeNext` completes and only writes its destination. -/
theorem writeNext_completes (s : State) (rd : RegNum) (v : Word) :
    CompletesWith (s.writeNext rd v) (OnlyWritesReg s rd v (s.pc + 4#32)) :=
  ⟨_, rfl, onlyWritesReg_setReg s rd v (s.pc + 4#32)⟩

/-- The frame of setting pc. -/
theorem onlySetsPc_jumpTo (s : State) (target : Word) : OnlySetsPc s target (s.jumpTo target) :=
  ⟨rfl, fun _ => rfl, ⟨rfl, rfl⟩, ⟨rfl, rfl, rfl, rfl, rfl⟩, fun _ => rfl, ⟨rfl, rfl, rfl, rfl, rfl⟩⟩

/-- The frame of writing HI and LO. -/
theorem onlyWritesHiLo_set (s : State) (h l : Word) :
    OnlyWritesHiLo s h l { s with hi := h, lo := l, pc := s.pc + 4#32 } :=
  ⟨rfl, rfl, rfl, fun _ => rfl, ⟨rfl, rfl, rfl, rfl, rfl⟩, fun _ => rfl, ⟨rfl, rfl, rfl, rfl, rfl⟩⟩

/-- The frame of trap entry (R310, R311, R321). -/
theorem trapsTo_enterGiet (s : State) (c : Cause) (epc : Word) (bad : Option Word) :
    TrapsTo s c.code epc bad (s.enterGiet c epc bad) := by
  refine ⟨rfl, rfl, rfl, rfl, rfl, rfl, rfl, rfl, rfl, rfl, ?_, rfl, fun _ => rfl, ⟨rfl, rfl⟩, fun _ => rfl,
    ⟨rfl, rfl, rfl, rfl, rfl⟩⟩
  cases bad <;> rfl

/-- A load that raises an exception traps with it. -/
theorem loadInto_traps {rt : RegNum} {a v : Word} {w : Width} {e : Exc} (h : s.accessExc a w .load = some e) :
    s.loadInto rt a w v = .next (s.raise e) := by
  unfold State.loadInto
  rw [h]

/-- A load that is permitted writes its destination. -/
theorem loadInto_permitted {rt : RegNum} {a v : Word} {w : Width} (h : AccessPermitted s a w .load) :
    s.loadInto rt a w v = s.writeNext rt v := by
  unfold State.loadInto
  rw [accessExc_none_iff.mpr h]

/-- A store that raises an exception traps with it. -/
theorem storeInto_traps {a : Word} {w : Width} {m : Memory} {e : Exc} (h : s.accessExc a w .store = some e) :
    s.storeInto a w m = .next (s.raise e) := by
  unfold State.storeInto
  rw [h]

/-- A store that is permitted leaves the new memory. -/
theorem storeInto_permitted {a : Word} {w : Width} {m : Memory} (h : AccessPermitted s a w .store) :
    s.storeInto a w m = .next { s with mem := m, pc := s.pc + 4#32 } := by
  unfold State.storeInto
  rw [accessExc_none_iff.mpr h]
  rfl

/-- The frame of a store. -/
theorem onlyWritesMem_store (s : State) (a : Word) (w : Width) (m : Memory)
    (h : ∀ b, w.covers a b = false → m.byteAt b = s.mem.byteAt b) :
    OnlyWritesMem s a w { s with mem := m, pc := s.pc + 4#32 } :=
  ⟨rfl, fun _ => rfl, ⟨rfl, rfl⟩, ⟨rfl, rfl, rfl, rfl, rfl⟩, h, ⟨rfl, rfl, rfl, rfl, rfl⟩⟩

end Sys2Proof.Machine
end

