-- ==== Sys2Proof/Laws/Step.lean ====
section
/-! SUPPORT. What an instruction, and a step, can do, said once: `exec_shape` and `step_cases`. Invariants
follow from these without unfolding `exec` or `step` again. -/

namespace Sys2Proof.Machine

/-- The four shapes of what an instruction does to the state. -/
inductive ExecShape (s : State) : State → Prop where
  /-- It writes general registers, HI, LO and pc only. -/
  | plain (g : Vector Word 31) (p h l : Word) : ExecShape s { s with gpr := g, pc := p, hi := h, lo := l }
  /-- It traps. -/
  | trap (c : Cause) (epc : Word) (bad : Option Word) : ExecShape s (s.enterGiet c epc bad)
  /-- It stores, where a store is permitted. -/
  | store (a : Word) (w : Width) (m : Memory) (permitted : s.accessExc a w .store = none)
      (outside : ∀ b, w.covers a b = false → m.byteAt b = s.mem.byteAt b)
      (keepsForm : s.mem.wf = true → m.wf = true) :
      ExecShape s { s with mem := m, pc := s.pc + 4#32 }
  /-- It is privileged and reads or writes CP0 registers. -/
  | system (privileged : s.privileged = true) (g : Vector Word 31) (p : Word) (sr : StatusReg) (swi : BitVec 2)
      (epc bar cycles : Word) :
      ExecShape s
        { s with
          gpr := g, pc := p, sr := sr, cr := { s.cr with swi := swi }, epc := epc, bar := bar,
          cyclecount := cycles }

variable {s t : State}

theorem shape_writeNext {rd : RegNum} {v : Word} (h : s.writeNext rd v = .next t) : ExecShape s t := by
  rw [writeNext_next] at h
  subst h
  exact .plain _ _ _ _

theorem shape_writeUnlessOverflow {rd : RegNum} {o : Bool} {v : Word}
    (h : s.writeUnlessOverflow rd o v = .next t) : ExecShape s t := by
  rw [writeUnlessOverflow_next] at h
  obtain ⟨-, rfl⟩ | ⟨-, rfl⟩ := h
  · exact .trap _ _ _
  · exact .plain _ _ _ _

theorem shape_writeHiLo {hi lo : Word} (h : s.writeHiLo hi lo = .next t) : ExecShape s t := by
  rw [writeHiLo_next] at h
  subst h
  exact .plain _ _ _ _

theorem shape_branchIf {c : Bool} {imd16 : BitVec 16} (h : s.branchIf c imd16 = .next t) :
    ExecShape s t := by
  rw [branchIf_next] at h
  subst h
  exact .plain _ _ _ _

theorem shape_branchLinkIf {c : Bool} {imd16 : BitVec 16} (h : s.branchLinkIf c imd16 = .next t) :
    ExecShape s t := by
  rw [branchLinkIf_next] at h
  subst h
  exact .plain _ _ _ _

theorem shape_loadInto {rt : RegNum} {a : Word} {w : Width} {v : Word}
    (h : s.loadInto rt a w v = .next t) : ExecShape s t := by
  rw [loadInto_next] at h
  obtain ⟨e, -, rfl⟩ | ⟨-, rfl⟩ := h
  · exact .trap _ _ _
  · exact .plain _ _ _ _

theorem shape_storeInto {a : Word} {w : Width} {m : Memory}
    (outside : ∀ b, w.covers a b = false → m.byteAt b = s.mem.byteAt b)
    (keepsForm : s.mem.wf = true → m.wf = true)
    (h : s.storeInto a w m = .next t) : ExecShape s t := by
  rw [storeInto_next] at h
  obtain ⟨e, -, rfl⟩ | ⟨ok, rfl⟩ := h
  · exact .trap _ _ _
  · exact .store a w m ok outside keepsForm

theorem shape_mfc0 {rt rd : RegNum} (h : execMfc0 rt rd s = .next t) : ExecShape s t := by
  obtain ⟨hp, h⟩ | ⟨-, rfl⟩ := ifPrivileged_next.mp h
  · obtain rfl | ⟨v, c, rfl, -⟩ := readCp0_next h
    · exact .trap _ _ _
    exact .system hp (writeGpr s.gpr rt v) (s.pc + 4#32) s.sr s.cr.swi s.epc s.bar c
  · exact .trap _ _ _

theorem shape_mtc0 {rt rd : RegNum} (h : execMtc0 rt rd s = .next t) : ExecShape s t := by
  obtain ⟨hp, h⟩ | ⟨-, rfl⟩ := ifPrivileged_next.mp h
  · rcases writeCp0_next h with rfl | ⟨-, rfl⟩ | ⟨-, rfl⟩ | ⟨-, rfl⟩ | ⟨-, rfl⟩ | rfl
    · exact .trap _ _ _
    · exact .system hp s.gpr (s.pc + 4#32) s.sr s.cr.swi s.epc _ s.cyclecount
    · exact .system hp s.gpr (s.pc + 4#32) _ s.cr.swi s.epc s.bar s.cyclecount
    · exact .system hp s.gpr (s.pc + 4#32) s.sr _ s.epc s.bar s.cyclecount
    · exact .system hp s.gpr (s.pc + 4#32) s.sr s.cr.swi _ s.bar s.cyclecount
    · exact .plain s.gpr (s.pc + 4#32) s.hi s.lo
  · exact .trap _ _ _

theorem shape_eret (h : execEret s = .next t) : ExecShape s t := by
  obtain ⟨hp, h⟩ | ⟨-, rfl⟩ := ifPrivileged_next.mp h
  · injection h with h
    subst h
    exact .system hp s.gpr s.epc _ s.cr.swi s.epc s.bar s.cyclecount
  · exact .trap _ _ _

theorem shape_next {u : State} (hu : ExecShape s u)
    (h : (Host.Outcome.next u : Result) = .next t) : ExecShape s t := by
  injection h with h
  exact h ▸ hu

/-- What an instruction can do: if it answers a next state, that state has one of the four shapes. -/
theorem exec_shape {i : Instr} (h : exec i s = .next t) : ExecShape s t := by
  cases i
  case syscall => exact shape_next (.trap _ _ _) h
  case breakpoint => exact shape_next (.trap _ _ _) h
  case mfc0 => exact shape_mfc0 h
  case mtc0 => exact shape_mtc0 h
  case eret => exact shape_eret h
  case j => exact shape_next (.plain _ _ _ _) h
  case jal => exact shape_next (.plain _ _ _ _) h
  case jr => exact shape_next (.plain _ _ _ _) h
  case jalr => exact shape_next (.plain _ _ _ _) h
  case add | sub | addi => exact shape_writeUnlessOverflow h
  case mult | multu | div | divu | mthi | mtlo => exact shape_writeHiLo h
  case beq | bne | blez | bgtz | bltz | bgez => exact shape_branchIf h
  case bltzal | bgezal => exact shape_branchLinkIf h
  case lb | lbu | lh | lhu | lw => exact shape_loadInto h
  case sb => exact shape_storeInto (fun _ => Memory.setByte_outside) (Memory.wf_setByte _ _) h
  case sh => exact shape_storeInto (fun _ => Memory.setHalf_outside) (Memory.wf_setHalf _ _) h
  case sw => exact shape_storeInto (fun _ => Memory.setWord_outside) (Memory.wf_setWord _ _) h
  all_goals exact shape_writeNext h

/-- What an instruction can do to the CP0 registers. -/
inductive Cp0Effect (i : Instr) (s t : State) : Prop where
  /-- It keeps SR, CR, EPC, BAR and CYCLECOUNT. -/
  | kept (h : Cp0Kept s t)
  /-- It raises an exception. -/
  | raised (e : Exc) (h : t = s.raise e)
  /-- It is SYSCALL or BREAK. -/
  | called (c : Cause) (h : t = s.enterSystemCall c)
  /-- It is MFC0, privileged, which may move CYCLECOUNT on. -/
  | read (privileged : s.privileged = true)
      (h : t.sr = s.sr ∧ t.cr = s.cr ∧ t.epc = s.epc ∧ t.bar = s.bar)
  /-- It is MTC0, privileged. -/
  | written (privileged : s.privileged = true) (rt rd : RegNum) (hi : i = .mtc0 rt rd)
      (h : Cp0Written s rd (s.reg rt) t)
  /-- It is ERET, privileged. -/
  | returned (privileged : s.privileged = true) (hi : i = .eret) (h : t = s.returnFromGiet)

theorem cp0_effect {i : Instr} (h : exec i s = .next t) : Cp0Effect i s t := by
  have keeps : t.sr = s.sr → t.cr = s.cr → t.epc = s.epc → t.bar = s.bar → t.cyclecount = s.cyclecount →
      Cp0Effect i s t := fun h1 h2 h3 h4 h5 => .kept ⟨h1, h2, h3, h4, h5⟩
  cases i
  case lb | lbu | lh | lhu | lw =>
    rcases loadInto_next.mp h with ⟨e, -, rfl⟩ | ⟨-, rfl⟩
    · exact .raised e rfl
    · exact keeps rfl rfl rfl rfl rfl
  case sb | sh | sw =>
    rcases storeInto_next.mp h with ⟨e, -, rfl⟩ | ⟨-, rfl⟩
    · exact .raised e rfl
    · exact keeps rfl rfl rfl rfl rfl
  case add | sub | addi =>
    rcases writeUnlessOverflow_next.mp h with ⟨-, rfl⟩ | ⟨-, rfl⟩
    · exact .raised .ovf rfl
    · exact keeps rfl rfl rfl rfl rfl
  case mfc0 =>
    rcases ifPrivileged_next.mp h with ⟨hp, h⟩ | ⟨-, rfl⟩
    · obtain rfl | ⟨v, c, rfl, -⟩ := readCp0_next h
      · exact .raised .ri rfl
      exact .read hp ⟨rfl, rfl, rfl, rfl⟩
    · exact .raised .cpu rfl
  case mtc0 rt rd =>
    rcases ifPrivileged_next.mp h with ⟨hp, h⟩ | ⟨-, rfl⟩
    · rcases writeCp0_next h with rfl | h
      · exact .raised .ri rfl
      · exact .written hp rt rd rfl h
    · exact .raised .cpu rfl
  case eret =>
    rcases ifPrivileged_next.mp h with ⟨hp, h⟩ | ⟨-, rfl⟩
    · injection h with h
      exact .returned hp rfl h.symm
    · exact .raised .cpu rfl
  case syscall =>
    injection h with h
    exact .called .sys h.symm
  case breakpoint =>
    injection h with h
    exact .called .bp h.symm
  all_goals
    injection h with h
    subst h
    exact keeps rfl rfl rfl rfl rfl

/-- What a step can do: RESET or an interrupt at the boundary, an exception of the fetch or of the decoder,
or the instruction at pc. -/
theorem step_cases (h : step s = .next t) :
    (s.boundary = .ended t) ∨
      (∃ u e, s.boundary = .runs u ∧ u.fetch = .trap e ∧ t = u.raise e) ∨
        (∃ u i, s.boundary = .runs u ∧ u.fetch = .instr i ∧ exec i u = .next t) := by
  unfold step at h
  cases hb : s.boundary with
  | ended u =>
    rw [hb] at h
    injection h with h
    exact .inl (h ▸ rfl)
  | runs u =>
    rw [hb] at h
    dsimp only at h
    cases hf : u.fetch with
    | instr i =>
      rw [hf] at h
      exact .inr (.inr ⟨u, i, rfl, hf, h⟩)
    | trap e =>
      rw [hf] at h
      injection h with h
      exact .inr (.inl ⟨u, e, rfl, hf, h.symm⟩)
    | refuse r =>
      rw [hf] at h
      cases h

/-- When the boundary lets the instruction at pc run and it is fetched, the step is that instruction. -/
theorem step_of_instr {u : State} {i : Instr} (hb : s.boundary = .runs u) (hf : u.fetch = .instr i) :
    step s = exec i u := by
  unfold step
  rw [hb]
  dsimp only
  rw [hf]

/-- When fetching raises an exception, the step is its entry. -/
theorem step_of_trap {u : State} {e : Exc} (hb : s.boundary = .runs u) (hf : u.fetch = .trap e) :
    step s = .next (u.raise e) := by
  unfold step
  rw [hb]
  dsimp only
  rw [hf]

end Sys2Proof.Machine
end

