-- ==== Sys2Proof/Tests/Slice0.lean ====
section
/-! SUPPORT. Tests: the check of WellFormed, the decoding of every constructor, single steps with the results
the spec's rules give in their examples and corner cases, and a witness for the hypotheses of every
statement. -/

namespace Sys2Proof.Tests

open Sys2Proof.Machine

/-! ## WellFormed: its one check, on an ill-formed and a well-formed term -/

theorem test_wf_mfc0_refused : (Instr.mfc0 1#5 9#5).wellFormed = false := by decide

theorem test_wf_mtc0_refused : (Instr.mtc0 1#5 17#5).wellFormed = false := by decide

theorem test_wf_mfc0_accepted : (Instr.mfc0 1#5 16#5).wellFormed = true := by decide

/-! ## Decoding: the encoding each rule writes out, with RS = 10001, RT = 01110, RD = 11010, SH = 10101 -/

theorem test_decode_add :
    decodeTableWord 32 0b000000_10001_01110_11010_00000_100000 = some (.add 0b10001#5 0b01110#5 0b11010#5) := by decide

theorem test_decode_addu :
    decodeTableWord 32 0b000000_10001_01110_11010_00000_100001 = some (.addu 0b10001#5 0b01110#5 0b11010#5) := by decide

theorem test_decode_sub :
    decodeTableWord 32 0b000000_10001_01110_11010_00000_100010 = some (.sub 0b10001#5 0b01110#5 0b11010#5) := by decide

theorem test_decode_subu :
    decodeTableWord 32 0b000000_10001_01110_11010_00000_100011 = some (.subu 0b10001#5 0b01110#5 0b11010#5) := by decide

theorem test_decode_and :
    decodeTableWord 32 0b000000_10001_01110_11010_00000_100100 = some (.and 0b10001#5 0b01110#5 0b11010#5) := by decide

theorem test_decode_or :
    decodeTableWord 32 0b000000_10001_01110_11010_00000_100101 = some (.or 0b10001#5 0b01110#5 0b11010#5) := by decide

theorem test_decode_xor :
    decodeTableWord 32 0b000000_10001_01110_11010_00000_100110 = some (.xor 0b10001#5 0b01110#5 0b11010#5) := by decide

theorem test_decode_nor :
    decodeTableWord 32 0b000000_10001_01110_11010_00000_100111 = some (.nor 0b10001#5 0b01110#5 0b11010#5) := by decide

theorem test_decode_slt :
    decodeTableWord 32 0b000000_10001_01110_11010_00000_101010 = some (.slt 0b10001#5 0b01110#5 0b11010#5) := by decide

theorem test_decode_sltu :
    decodeTableWord 32 0b000000_10001_01110_11010_00000_101011 = some (.sltu 0b10001#5 0b01110#5 0b11010#5) := by decide

theorem test_decode_sll :
    decodeTableWord 32 0b000000_00000_01110_11010_10101_000000 = some (.sll 0b01110#5 0b11010#5 0b10101#5) := by decide

theorem test_decode_srl :
    decodeTableWord 32 0b000000_00000_01110_11010_10101_000010 = some (.srl 0b01110#5 0b11010#5 0b10101#5) := by decide

theorem test_decode_sra :
    decodeTableWord 32 0b000000_00000_01110_11010_10101_000011 = some (.sra 0b01110#5 0b11010#5 0b10101#5) := by decide

theorem test_decode_sllv :
    decodeTableWord 32 0b000000_10001_01110_11010_00000_000100 = some (.sllv 0b10001#5 0b01110#5 0b11010#5) := by decide

theorem test_decode_srlv :
    decodeTableWord 32 0b000000_10001_01110_11010_00000_000110 = some (.srlv 0b10001#5 0b01110#5 0b11010#5) := by decide

theorem test_decode_srav :
    decodeTableWord 32 0b000000_10001_01110_11010_00000_000111 = some (.srav 0b10001#5 0b01110#5 0b11010#5) := by decide

theorem test_decode_mult :
    decodeTableWord 32 0b000000_10001_01110_00000_00000_011000 = some (.mult 0b10001#5 0b01110#5) := by decide

theorem test_decode_multu :
    decodeTableWord 32 0b000000_10001_01110_00000_00000_011001 = some (.multu 0b10001#5 0b01110#5) := by decide

theorem test_decode_div :
    decodeTableWord 32 0b000000_10001_01110_00000_00000_011010 = some (.div 0b10001#5 0b01110#5) := by decide

theorem test_decode_divu :
    decodeTableWord 32 0b000000_10001_01110_00000_00000_011011 = some (.divu 0b10001#5 0b01110#5) := by decide

theorem test_decode_mfhi :
    decodeTableWord 32 0b000000_00000_00000_11010_00000_010000 = some (.mfhi 0b11010#5) := by decide

theorem test_decode_mthi :
    decodeTableWord 32 0b000000_10001_00000_00000_00000_010001 = some (.mthi 0b10001#5) := by decide

theorem test_decode_mflo :
    decodeTableWord 32 0b000000_00000_00000_11010_00000_010010 = some (.mflo 0b11010#5) := by decide

theorem test_decode_mtlo :
    decodeTableWord 32 0b000000_10001_00000_00000_00000_010011 = some (.mtlo 0b10001#5) := by decide

theorem test_decode_addi :
    decodeTableWord 32 0b001000_10001_01110_1000000000000011 = some (.addi 0b10001#5 0b01110#5 0x8003#16) := by decide

theorem test_decode_addiu :
    decodeTableWord 32 0b001001_10001_01110_1000000000000011 = some (.addiu 0b10001#5 0b01110#5 0x8003#16) := by decide

theorem test_decode_slti :
    decodeTableWord 32 0b001010_10001_01110_1000000000000011 = some (.slti 0b10001#5 0b01110#5 0x8003#16) := by decide

theorem test_decode_sltiu :
    decodeTableWord 32 0b001011_10001_01110_1000000000000011 = some (.sltiu 0b10001#5 0b01110#5 0x8003#16) := by decide

theorem test_decode_andi :
    decodeTableWord 32 0b001100_10001_01110_1000000000000011 = some (.andi 0b10001#5 0b01110#5 0x8003#16) := by decide

theorem test_decode_ori :
    decodeTableWord 32 0b001101_10001_01110_1000000000000011 = some (.ori 0b10001#5 0b01110#5 0x8003#16) := by decide

theorem test_decode_xori :
    decodeTableWord 32 0b001110_10001_01110_1000000000000011 = some (.xori 0b10001#5 0b01110#5 0x8003#16) := by decide

theorem test_decode_lui :
    decodeTableWord 32 0b001111_00000_01110_1000000000000011 = some (.lui 0b01110#5 0x8003#16) := by decide

theorem test_decode_j :
    decodeTableWord 32 0b000010_10000000000000000000000011 = some (.j 0x2000003#26) := by decide

theorem test_decode_jal :
    decodeTableWord 32 0b000011_10000000000000000000000011 = some (.jal 0x2000003#26) := by decide

theorem test_decode_jr :
    decodeTableWord 32 0b000000_10001_00000_00000_00000_001000 = some (.jr 0b10001#5) := by decide

theorem test_decode_jalr :
    decodeTableWord 32 0b000000_10001_00000_11010_00000_001001 = some (.jalr 0b10001#5 0b11010#5) := by decide

theorem test_decode_beq :
    decodeTableWord 32 0b000100_10001_01110_1000000000000011 = some (.beq 0b10001#5 0b01110#5 0x8003#16) := by decide

theorem test_decode_bne :
    decodeTableWord 32 0b000101_10001_01110_1000000000000011 = some (.bne 0b10001#5 0b01110#5 0x8003#16) := by decide

theorem test_decode_blez :
    decodeTableWord 32 0b000110_10001_00000_1000000000000011 = some (.blez 0b10001#5 0x8003#16) := by decide

theorem test_decode_bgtz :
    decodeTableWord 32 0b000111_10001_00000_1000000000000011 = some (.bgtz 0b10001#5 0x8003#16) := by decide

theorem test_decode_bltz :
    decodeTableWord 32 0b000001_10001_00000_1000000000000011 = some (.bltz 0b10001#5 0x8003#16) := by decide

theorem test_decode_bgez :
    decodeTableWord 32 0b000001_10001_00001_1000000000000011 = some (.bgez 0b10001#5 0x8003#16) := by decide

theorem test_decode_bltzal :
    decodeTableWord 32 0b000001_10001_10000_1000000000000011 = some (.bltzal 0b10001#5 0x8003#16) := by decide

theorem test_decode_bgezal :
    decodeTableWord 32 0b000001_10001_10001_1000000000000011 = some (.bgezal 0b10001#5 0x8003#16) := by decide

theorem test_decode_lb :
    decodeTableWord 32 0b100000_10001_01110_1000000000000011 = some (.lb 0b10001#5 0b01110#5 0x8003#16) := by decide

theorem test_decode_lbu :
    decodeTableWord 32 0b100100_10001_01110_1000000000000011 = some (.lbu 0b10001#5 0b01110#5 0x8003#16) := by decide

theorem test_decode_lh :
    decodeTableWord 32 0b100001_10001_01110_1000000000000011 = some (.lh 0b10001#5 0b01110#5 0x8003#16) := by decide

theorem test_decode_lhu :
    decodeTableWord 32 0b100101_10001_01110_1000000000000011 = some (.lhu 0b10001#5 0b01110#5 0x8003#16) := by decide

theorem test_decode_lw :
    decodeTableWord 32 0b100011_10001_01110_1000000000000011 = some (.lw 0b10001#5 0b01110#5 0x8003#16) := by decide

theorem test_decode_sb :
    decodeTableWord 32 0b101000_10001_01110_1000000000000011 = some (.sb 0b10001#5 0b01110#5 0x8003#16) := by decide

theorem test_decode_sh :
    decodeTableWord 32 0b101001_10001_01110_1000000000000011 = some (.sh 0b10001#5 0b01110#5 0x8003#16) := by decide

theorem test_decode_sw :
    decodeTableWord 32 0b101011_10001_01110_1000000000000011 = some (.sw 0b10001#5 0b01110#5 0x8003#16) := by decide

theorem test_decode_syscall :
    decodeTableWord 32 0b000000_00000_00000_00000_00000_001100 = some .syscall := by decide

theorem test_decode_breakpoint :
    decodeTableWord 32 0b000000_00000_00000_00000_00000_001101 = some .breakpoint := by decide

theorem test_decode_mfc0 :
    decodeTableWord 32 0b010000_00000_01110_01100_00000_000000 = some (.mfc0 0b01110#5 0b01100#5) := by decide

theorem test_decode_mtc0 :
    decodeTableWord 32 0b010000_00100_01110_01100_00000_000000 = some (.mtc0 0b01110#5 0b01100#5) := by decide

theorem test_decode_eret :
    decodeTableWord 32 0b010000_10000_00000_00000_00000_011000 = some .eret := by decide

/-- Words the decoder rejects by name: an empty cell of OPCOD, an empty cell of FUNC (R120), too few bytes. -/
theorem test_decode_rejects :
    decodeWith false 0xFC000000#32 = .error (.emptyOpcode 0b111111#6) ∧
      decodeWith false 0x00000001#32 = .error (.emptyFunction 0b000001#6) ∧
      decode false [0x00#8, 0x00#8, 0x00#8] = .error .tooShort := by decide

/-- A word that is not canonical is ADD under literal decoding, and is rejected by name under DECODE_STRICT
(R116). -/
theorem test_decode_strict :
    decodeWith false 0x00221860#32 = .ok (.add 1#5 2#5 3#5) ∧
      decodeWith true 0x00221860#32 = .error (.nonCanonical 0x00221860#32) := by decide

/-! ## Single steps -/

/-- A user program at 0x00400000 with some registers set. -/
def start (regs : List (RegNum × Word)) : State :=
  regs.foldl (fun s r => s.setReg r.1 r.2)
    { State.reset with pc := 0x00400000#32, sr := ⟨0#8, true, false, false, false⟩ }

/-- The same in supervisor mode (UM = 0). -/
def sup (regs : List (RegNum × Word)) : State :=
  { start regs with sr := ⟨0#8, false, false, false, false⟩ }

/-- The state an answer gives; the given one where it gives none. -/
def next (s : State) (o : Result) : State :=
  match o with
  | .next t => t
  | .fault _ => s
  | .refused _ => s

/-- One step on the word `w` placed at pc. -/
def run (w : Word) (s : State) : State := next s (step (s.placeWord w))

/-- R143, example. -/
theorem test_add :
    let t := run 0x00221820#32 (start [(1#5, 5#32), (2#5, 0xFFFFFFFD#32)])
    t.reg 3#5 = 0x00000002#32 ∧ t.pc = 0x00400004#32 := by decide

/-- R143, corner case: RD = 0 still raises OVF. -/
theorem test_add_overflow :
    let t := run 0x00220020#32 (start [(1#5, 0x7FFFFFFF#32), (2#5, 1#32)])
    t.cr.xcode = 0b1100#4 ∧ t.epc = 0x00400000#32 := by decide

/-- R144, corner case. -/
theorem test_addu :
    (run 0x00221821#32 (start [(1#5, 0x7FFFFFFF#32), (2#5, 1#32)])).reg 3#5 = 0x80000000#32 := by decide

/-- R145, example. -/
theorem test_sub :
    (run 0x00221822#32 (start [(1#5, 5#32), (2#5, 7#32)])).reg 3#5 = 0xFFFFFFFE#32 := by decide

/-- R145, corner case. -/
theorem test_sub_overflow :
    let t := run 0x00221822#32 (start [(1#5, 0#32), (2#5, 0x80000000#32)])
    t.cr.xcode = 0b1100#4 ∧ t.reg 3#5 = 0#32 := by decide

/-- R146, example. -/
theorem test_subu :
    (run 0x00221823#32 (start [(1#5, 0#32), (2#5, 1#32)])).reg 3#5 = 0xFFFFFFFF#32 := by decide

/-- R147, example. -/
theorem test_and :
    (run 0x00221824#32 (start [(1#5, 0xFF00FF00#32), (2#5, 0x0FF00FF0#32)])).reg 3#5 = 0x0F000F00#32 := by decide

/-- R148, example. -/
theorem test_or :
    (run 0x00221825#32 (start [(1#5, 0xFF00FF00#32), (2#5, 0x0FF00FF0#32)])).reg 3#5 = 0xFFF0FFF0#32 := by decide

/-- R149, example. -/
theorem test_xor :
    (run 0x00221826#32 (start [(1#5, 0xFF00FF00#32), (2#5, 0x0FF00FF0#32)])).reg 3#5 = 0xF0F0F0F0#32 := by decide

/-- R150, example. -/
theorem test_nor :
    (run 0x00221827#32 (start [(1#5, 0xFF00FF00#32), (2#5, 0x0FF00FF0#32)])).reg 3#5 = 0x000F000F#32 := by decide

/-- R151, example. -/
theorem test_slt :
    (run 0x0022182A#32 (start [(1#5, 0xFFFFFFFF#32), (2#5, 1#32)])).reg 3#5 = 1#32 := by decide

/-- R152, example. -/
theorem test_sltu :
    (run 0x0022182B#32 (start [(1#5, 0xFFFFFFFF#32), (2#5, 1#32)])).reg 3#5 = 0#32 := by decide

/-- R153, example. -/
theorem test_sll :
    (run 0x00021900#32 (start [(2#5, 0x12345678#32)])).reg 3#5 = 0x23456780#32 := by decide

/-- R154, example. -/
theorem test_srl :
    (run 0x00021902#32 (start [(2#5, 0x80000000#32)])).reg 3#5 = 0x08000000#32 := by decide

/-- R155, example. -/
theorem test_sra :
    (run 0x00021903#32 (start [(2#5, 0x80000000#32)])).reg 3#5 = 0xF8000000#32 := by decide

/-- R156, example: an amount of 36 shifts by 4. -/
theorem test_sllv :
    (run 0x00221804#32 (start [(2#5, 0x12345678#32), (1#5, 0x24#32)])).reg 3#5 = 0x23456780#32 := by decide

/-- R157, example. -/
theorem test_srlv :
    (run 0x00221806#32 (start [(2#5, 0x80000000#32), (1#5, 4#32)])).reg 3#5 = 0x08000000#32 := by decide

/-- R158, example. -/
theorem test_srav :
    (run 0x00221807#32 (start [(2#5, 0x80000000#32), (1#5, 4#32)])).reg 3#5 = 0xF8000000#32 := by decide

/-- R159, example. -/
theorem test_mult :
    let t := run 0x00220018#32 (start [(1#5, 0xFFFFFFFE#32), (2#5, 3#32)])
    t.hi = 0xFFFFFFFF#32 ∧ t.lo = 0xFFFFFFFA#32 := by decide

/-- R160, example. -/
theorem test_multu :
    let t := run 0x00220019#32 (start [(1#5, 0xFFFFFFFE#32), (2#5, 3#32)])
    t.hi = 0x00000002#32 ∧ t.lo = 0xFFFFFFFA#32 := by decide

/-- R161, example. -/
theorem test_div :
    let t := run 0x0022001A#32 (start [(1#5, 0xFFFFFFF9#32), (2#5, 2#32)])
    t.lo = 0xFFFFFFFD#32 ∧ t.hi = 0xFFFFFFFF#32 := by decide

/-- R161, corner case: 7 by -2. -/
theorem test_div_signs :
    let t := run 0x0022001A#32 (start [(1#5, 7#32), (2#5, 0xFFFFFFFE#32)])
    t.lo = 0xFFFFFFFD#32 ∧ t.hi = 1#32 := by decide

/-- R162, example. -/
theorem test_divu :
    let t := run 0x0022001B#32 (start [(1#5, 0xFFFFFFF9#32), (2#5, 2#32)])
    t.lo = 0x7FFFFFFC#32 ∧ t.hi = 1#32 := by decide

/-- R162, corner case: no trap. -/
theorem test_divu_zero :
    (run 0x0022001B#32 (start [(1#5, 1#32), (2#5, 0#32)])).pc = 0x00400004#32 := by decide

/-- R163 and R165. -/
theorem test_mfhi_mflo :
    let s := { start [] with hi := 0xFFFFFFFF#32, lo := 0xFFFFFFFA#32 }
    (run 0x00001810#32 s).reg 3#5 = 0xFFFFFFFF#32 ∧ (run 0x00001812#32 s).reg 3#5 = 0xFFFFFFFA#32 := by
  decide

/-- R164, example. -/
theorem test_mthi :
    let t := run 0x00200011#32 (start [(1#5, 0xDEADBEEF#32)])
    t.hi = 0xDEADBEEF#32 ∧ t.lo = 0#32 := by decide

/-- R166, example. -/
theorem test_mtlo :
    let t := run 0x00200013#32 (start [(1#5, 7#32)])
    t.lo = 7#32 ∧ t.hi = 0#32 := by decide

/-- R167, example. -/
theorem test_addi :
    (run 0x2022FFFF#32 (start [(1#5, 0#32)])).reg 2#5 = 0xFFFFFFFF#32 := by decide

/-- R167, corner case. -/
theorem test_addi_overflow :
    let t := run 0x2022FFFF#32 (start [(1#5, 0x80000000#32)])
    t.cr.xcode = 0b1100#4 ∧ t.reg 2#5 = 0#32 := by decide

/-- R168, corner case. -/
theorem test_addiu :
    (run 0x24220001#32 (start [(1#5, 0x7FFFFFFF#32)])).reg 2#5 = 0x80000000#32 := by decide

/-- R169, example. -/
theorem test_slti :
    (run 0x2822FFFF#32 (start [(1#5, 0xFFFFFFFE#32)])).reg 2#5 = 1#32 := by decide

/-- R170, example. -/
theorem test_sltiu :
    (run 0x2C22FFFF#32 (start [(1#5, 5#32)])).reg 2#5 = 1#32 := by decide

/-- R171, example. -/
theorem test_andi :
    (run 0x3022FF00#32 (start [(1#5, 0x12345678#32)])).reg 2#5 = 0x00005600#32 := by decide

/-- R172, example. -/
theorem test_ori :
    (run 0x3422FF00#32 (start [(1#5, 0x12345678#32)])).reg 2#5 = 0x1234FF78#32 := by decide

/-- R173, example. -/
theorem test_xori :
    (run 0x3822FF00#32 (start [(1#5, 0x12345678#32)])).reg 2#5 = 0x1234A978#32 := by decide

/-- R174, example. -/
theorem test_lui :
    (run 0x3C021234#32 (start [])).reg 2#5 = 0x12340000#32 := by decide

/-- R204, example. -/
theorem test_j :
    (run 0x08100008#32 (start [])).pc = 0x00400020#32 := by decide

/-- R205, the link and the target. -/
theorem test_jal :
    let t := run 0x0C100008#32 (start [])
    t.reg 31#5 = 0x00400004#32 ∧ t.pc = 0x00400020#32 := by decide

/-- R206, example. -/
theorem test_jr :
    (run 0x03E00008#32 (start [(31#5, 0x0040000C#32)])).pc = 0x0040000C#32 := by decide

/-- R207, example. -/
theorem test_jalr :
    let t := run 0x0080F809#32 (start [(4#5, 0x00400100#32)])
    t.reg 31#5 = 0x00400004#32 ∧ t.pc = 0x00400100#32 := by decide

/-- R207, corner case: RD = RS jumps to the old value. -/
theorem test_jalr_same_register :
    let t := run 0x00802009#32 (start [(4#5, 0x00400100#32)])
    t.reg 4#5 = 0x00400004#32 ∧ t.pc = 0x00400100#32 := by decide

/-- R208, example. -/
theorem test_beq :
    (run 0x10220003#32 (start [(1#5, 9#32), (2#5, 9#32)])).pc = 0x00400010#32 := by decide

/-- R208, example. -/
theorem test_beq_not_taken :
    (run 0x10220003#32 (start [(1#5, 9#32), (2#5, 8#32)])).pc = 0x00400004#32 := by decide

/-- R209, the displacement of the example. -/
theorem test_bne :
    (run 0x1422FFFE#32 (start [(1#5, 9#32), (2#5, 8#32)])).pc = 0x003FFFFC#32 := by decide

/-- R210, example. -/
theorem test_blez :
    (run 0x18200003#32 (start [(1#5, 0#32)])).pc = 0x00400010#32 := by decide

/-- R211, example. -/
theorem test_bgtz :
    (run 0x1C200003#32 (start [(1#5, 0x80000000#32)])).pc = 0x00400004#32 := by decide

/-- R212, example. -/
theorem test_bltz :
    (run 0x04200003#32 (start [(1#5, 0xFFFFFFFF#32)])).pc = 0x00400010#32 := by decide

/-- R213, example. -/
theorem test_bgez :
    (run 0x04210003#32 (start [(1#5, 0x80000000#32)])).pc = 0x00400004#32 := by decide

/-- R214, example: the link is written without a branch. -/
theorem test_bltzal :
    let t := run 0x04300003#32 (start [(1#5, 5#32)])
    t.reg 31#5 = 0x00400004#32 ∧ t.pc = 0x00400004#32 := by decide

/-- R214, corner case: the old R31 is tested. -/
theorem test_bltzal_r31 :
    let t := run 0x07F00003#32 (start [(31#5, 0xFFFFFFFF#32)])
    t.reg 31#5 = 0x00400004#32 ∧ t.pc = 0x00400010#32 := by decide

/-- R215, example. -/
theorem test_bgezal :
    let t := run 0x04310003#32 (start [(1#5, 0#32)])
    t.reg 31#5 = 0x00400004#32 ∧ t.pc = 0x00400010#32 := by decide

/-- The memory of the examples of R232 to R239: bytes F1 A5 C3 80 at 0x10000000. -/
def data (s : State) : State := { s with mem := s.mem.setWord 0x10000000#32 0x80C3A5F1#32 }

/-- A data access at 0x10000000 plus the displacement: R1 is the base, R2 the register. -/
def access (w : Word) (r2 : Word) : State := run w (data (start [(1#5, 0x10000000#32), (2#5, r2)]))

/-- R232, example. -/
theorem test_lb : (access 0x80220003#32 0#32).reg 2#5 = 0xFFFFFF80#32 := by decide

/-- R233, example. -/
theorem test_lbu : (access 0x90220003#32 0#32).reg 2#5 = 0x00000080#32 := by decide

/-- R234, example. -/
theorem test_lh : (access 0x84220002#32 0#32).reg 2#5 = 0xFFFF80C3#32 := by decide

/-- R234, example with displacement 1. -/
theorem test_lh_odd : (access 0x84220001#32 0#32).bar = 0x10000001#32 := by decide

/-- R235, example. -/
theorem test_lhu : (access 0x94220002#32 0#32).reg 2#5 = 0x000080C3#32 := by decide

/-- R236. -/
theorem test_lw : (access 0x8C220000#32 0#32).reg 2#5 = 0x80C3A5F1#32 := by decide

/-- R237, example. -/
theorem test_sb : (access 0xA0220001#32 0x123456AB#32).mem.wordAt 0x10000000#32 = 0x80C3ABF1#32 := by decide

/-- R238, example. -/
theorem test_sh : (access 0xA4220002#32 0x123456AB#32).mem.wordAt 0x10000000#32 = 0x56ABA5F1#32 := by decide

/-- R239, example: the lowest byte first. -/
theorem test_sw : (access 0xAC220008#32 0x11223344#32).mem.wordBytes 0x10000008#32 = [0x44#8, 0x33#8, 0x22#8, 0x11#8] := by decide

/-- R239, example: ADES in user mode. -/
theorem test_sw_system :
    let t := run 0xAC220008#32 (start [(1#5, 0x80000000#32), (2#5, 1#32)])
    t.cr.xcode = 0b0101#4 ∧ t.bar = 0x80000008#32 := by decide

/-- R261 and R262, examples. -/
theorem test_syscall_break :
    let s := { start [] with pc := 0x00400020#32, sr := StatusReg.ofWord 0x0000FF11#32 }
    let t := run 0x0000000C#32 s
    t.epc = 0x00400024#32 ∧ t.sr.toWord = 0x0000FF13#32 ∧ t.cr.toWord &&& 0x3C#32 = 0x20#32 ∧
      t.pc = 0x80000180#32 ∧ (run 0x0000000D#32 s).cr.toWord &&& 0x3C#32 = 0x24#32 := by decide

/-- R263, example. -/
theorem test_mfc0 :
    (run 0x40026000#32 { sup [] with sr := StatusReg.ofWord 0x0000FF13#32 }).reg 2#5 = 0x0000FF13#32 := by
  decide

/-- R260: in user mode MFC0 raises CPU and writes nothing. -/
theorem test_mfc0_user :
    let t := run 0x40026000#32 (start [])
    t.cr.xcode = 0b1011#4 ∧ t.epc = 0x00400000#32 ∧ t.reg 2#5 = 0#32 := by decide

/-- R264, examples: SR, and CR with SWI alone. -/
theorem test_mtc0 :
    (run 0x40826000#32 (sup [(2#5, 0x0000FF13#32)])).sr.toWord = 0x0000FF13#32 ∧
      (run 0x40826800#32 (sup [(2#5, 0xFFFFFFFF#32)])).cr.toWord = 0x00000300#32 := by decide

/-- R265, example: the boot sequence's ERET. -/
theorem test_eret :
    let t := run 0x42000018#32
      { sup [] with sr := StatusReg.ofWord 0x0000FF13#32, epc := 0x00400000#32, pc := 0x80001000#32 }
    t.sr.toWord = 0x0000FF11#32 ∧ t.pc = 0x00400000#32 := by decide

/-- R307, R120: an illegal word raises RI. -/
theorem test_illegal_word :
    let t := run 0xFC000000#32 (start [])
    t.cr.xcode = 0b1010#4 ∧ t.epc = 0x00400000#32 ∧ t.pc = 0x80000180#32 := by decide

/-- The interface: the bits of LUI, stored where the first step after reset fetches, run as LUI. -/
theorem test_withFetchWord :
    (next State.reset (step (State.reset.withFetchWord 32 0x3C021234))).reg 2#5 = 0x12340000#32 := by decide

/-! ## Witnesses: for every statement with hypotheses, a state and operands that meet them together -/

/-- A state whose next step runs the word placed at pc. -/
def ready (w : Word) (regs : List (RegNum × Word)) : State := (start regs).placeWord w

/-- One sample of the pins: the lines given, RESET or not. -/
def pinned (s : State) (lines : BitVec 6) (reset : Bool) : State := { s with pins := [⟨lines, reset⟩] }

/-- A machine that takes interrupts: IE = 1, EXL = ERL = 0 and a mask. -/
def open_ (mask : BitVec 8) : State := { start [] with sr := ⟨mask, true, false, false, true⟩ }

/-- A machine in which every access to one address gets BERR. -/
def failing (a : Word) (s : State) : State :=
  { s with berr := [⟨a, a, [.byte, .half, .word], [.fetch, .load, .store]⟩] }

/-- A state of a machine with other settings of CP0_UNDEF and DECODE_STRICT. -/
def setTo (c : Cp0Undef) (strict : Bool) (s : State) : State := { s with settings := ⟨c, strict⟩ }

/-- StrictDecodingIsCanonical, second clause: an ADD whose field SH is 1. -/
theorem witness_strict :
    let s := setTo .anyValue true (ready 0x00221860#32 [])
    s.settings.decodeStrict = true ∧ s.undisturbed = true ∧ AccessPermitted s s.pc .word .fetch ∧
      decodeWith false (s.mem.wordAt s.pc) = .ok (.add 1#5 2#5 3#5) ∧
      s.mem.wordAt s.pc ≠ encode (.add 1#5 2#5 3#5) := by decide

/-- EveryStepHasANextState, each clause: the settings at reset; and under `refuse`, MFC0 of an undefined number in
user mode and of a defined one in supervisor mode. -/
theorem witness_settings :
    State.reset.settings.decodeStrict = false ∧ State.reset.settings.cp0Undef ≠ .refuse ∧
      (setTo .refuse false (start [])).userMode = true ∧ (setTo .refuse false (sup [])).userMode = false ∧
      (Instr.mfc0 2#5 16#5).wellFormed = true := by decide

/-- RowBitsSelectTheInstruction. -/
theorem witness_row_bits :
    decodeWith false 0x00221860#32 = .ok (.add 1#5 2#5 3#5) ∧
      (0x00221860#32 : Word) &&& (Instr.add 1#5 2#5 3#5).row.1 = (Instr.add 1#5 2#5 3#5).row.2 := by decide

/-- StepRunsTheDecodedInstruction. -/
theorem witness_step_runs :
    let s := ready 0x00221820#32 []
    s.undisturbed = true ∧ AccessPermitted s s.pc .word .fetch ∧
      decode s.settings.decodeStrict (s.mem.wordBytes s.pc) = .ok (.add 1#5 2#5 3#5, []) := by decide

/-- ResetAction and ResetState. -/
theorem witness_reset : (pinned (start []) 0b111111#6 true).pinsNow.reset = true := by decide

/-- InterruptTakenExactlyWhenEnabled and InterruptEntry, first and last hardware line. -/
theorem witness_interrupt_lines :
    let s := pinned (open_ 0b00000100#8) 0b000001#6 false
    let u := pinned (open_ 0b10000000#8) 0b100000#6 false
    s.pinsNow.reset = false ∧ s.sampled.interruptTaken = true ∧ u.pinsNow.reset = false ∧
      u.sampled.interruptTaken = true := by decide

/-- InterruptTakenExactlyWhenEnabled, nothing taken: every line active, the hardware mask bits at 0. -/
theorem witness_interrupt_masked :
    let s := pinned (open_ 0b00000011#8) 0b111111#6 false
    s.pinsNow.reset = false ∧ s.sampled.interruptTaken = false := by decide

/-- FetchErrorsTrap, first clause: a pc that is not a multiple of 4, and the first address of the system
segment in user mode. -/
theorem witness_fetch_address :
    let s := { start [] with pc := 0x00400002#32 }
    let u := { start [] with pc := 0x80000000#32 }
    s.undisturbed = true ∧ ¬ AddressLegal s s.pc .word ∧ u.undisturbed = true ∧
      ¬ AddressLegal u u.pc .word := by decide

/-- FetchErrorsTrap, second clause, at the last word of the user segment. -/
theorem witness_fetch_bus_error :
    let s := failing 0x7FFFFFFC#32 { start [] with pc := 0x7FFFFFFC#32 }
    s.undisturbed = true ∧ AddressLegal s s.pc .word ∧ s.busError s.pc .word .fetch = true := by decide

/-- IllegalWordTraps: the first illegal OPCOD and the last illegal FUNC. -/
theorem witness_illegal_word :
    let s := ready 0x44000000#32 []
    let u := ready 0x0000003F#32 []
    s.undisturbed = true ∧ AccessPermitted s s.pc .word .fetch ∧ illegalWord (s.mem.wordAt s.pc) = true ∧
      illegalWord (u.mem.wordAt u.pc) = true := by decide

/-- ExceptionEntry, second clause. -/
theorem witness_exception_entry : ((start []).raise .ri).pinsNow.reset = false := by decide

/-- PrivilegedInstructionsTrapInUserMode: MFC0, MTC0 and ERET, each with unused bits at 1. -/
theorem witness_privileged :
    (start []).userMode = true ∧ decodeWith false 0x400260FF#32 = .ok (.mfc0 2#5 12#5) ∧
      decodeWith false 0x408260FF#32 = .ok (.mtc0 2#5 12#5) ∧ decodeWith false 0x43FFFFFF#32 = .ok .eret ∧
      opcodOf 0x43FFFFFF#32 = 0b010000#6 := by decide

/-- EretReturns, Mfc0Reads, Mtc0Writes and Cp0FreeValues. -/
theorem witness_supervisor :
    (sup []).userMode = false ∧ State.reset.userMode = false ∧ definedCp0 9#5 = false ∧
      definedCp0 17#5 = false ∧ (sup []).settings.cp0Undef = .anyValue ∧
      (setTo .ri false (sup [])).settings.cp0Undef = .ri ∧
      (setTo .refuse false (sup [])).settings.cp0Undef = .refuse := by decide

/-- BootSequenceEntersUserMode, both clauses. -/
theorem witness_boot :
    let s := State.reset.setReg 1#5 0x0000FF13#32
    let u := State.reset.setReg 1#5 0x0000FF11#32
    s.sr.toWord = 0x00000004#32 ∧ s.reg 1#5 = 0x0000FF13#32 ∧ u.reg 1#5 = 0x0000FF11#32 ∧
      0x80000000 ≤ (u.pc + 4#32).toNat ∧
      (next u (exec (.mtc0 1#5 12#5) u)).undisturbed = true := by decide

/-- SignedResultWithoutOverflow, each clause at the largest or the smallest result. -/
theorem witness_no_overflow :
    let s := start [(1#5, 0x7FFFFFFE#32), (2#5, 1#32), (3#5, 0x80000001#32)]
    FitsSigned ((s.reg 1#5).toInt + (s.reg 2#5).toInt) ∧
      FitsSigned ((s.reg 3#5).toInt - (s.reg 2#5).toInt) ∧
      FitsSigned ((s.reg 3#5).toInt + (0xFFFF#16 : BitVec 16).toInt) := by decide

/-- OverflowTraps, each clause one past the largest or the smallest result; the last one on an ADD. -/
theorem witness_overflow :
    let s := start [(1#5, 0x7FFFFFFF#32), (2#5, 1#32), (3#5, 0x80000000#32)]
    ¬ FitsSigned ((s.reg 1#5).toInt + (s.reg 2#5).toInt) ∧
      ¬ FitsSigned ((s.reg 3#5).toInt - (s.reg 2#5).toInt) ∧
      ¬ FitsSigned ((s.reg 3#5).toInt + (0xFFFF#16 : BitVec 16).toInt) ∧ s.cr.xcode ≠ 0b1100#4 ∧
      ∃ t, exec (.add 1#5 2#5 4#5) s = .next t ∧ t.cr.xcode = 0b1100#4 :=
  ⟨by decide, by decide, by decide, by decide, _, rfl, by decide⟩

/-- DefinedDivisions: -2^31 by 1, and by -2. -/
theorem witness_divisions :
    let s := start [(1#5, 0x80000000#32), (2#5, 1#32), (3#5, 0xFFFFFFFE#32)]
    s.reg 2#5 ≠ 0#32 ∧ ¬(s.reg 1#5 = 0x80000000#32 ∧ s.reg 2#5 = 0xFFFFFFFF#32) ∧ s.reg 3#5 ≠ 0#32 ∧
      ¬(s.reg 1#5 = 0x80000000#32 ∧ s.reg 3#5 = 0xFFFFFFFF#32) := by decide

/-- UndefinedDivisionsComplete, first two clauses: a zero divisor, and -2^31 by -1. -/
theorem witness_undefined_divisions :
    let s := start [(1#5, 0x80000000#32), (2#5, 0xFFFFFFFF#32)]
    s.reg 3#5 = 0#32 ∧ s.reg 1#5 = 0x80000000#32 ∧ s.reg 2#5 = 0xFFFFFFFF#32 := by decide

/-- UndefinedDivisionsComplete, last clause: the same operands in other registers of another state. -/
theorem witness_same_operands :
    let s := start [(1#5, 7#32)]
    let s' := sup [(4#5, 7#32)]
    s.reg 1#5 = s'.reg 4#5 ∧ s.reg 2#5 = s'.reg 5#5 ∧
      ∃ t t', exec (.div 1#5 2#5) s = .next t ∧ exec (.div 4#5 5#5) s' = .next t' :=
  ⟨by decide, by decide, _, _, rfl, rfl⟩

/-- LoadsReadMemory, StoresWriteMemory: the last byte, half-word and word of the user
segment, in user mode; the last word of the system segment, in supervisor mode. -/
theorem witness_access :
    let s := start [(1#5, 0x7FFFFFFF#32), (2#5, 0x7FFFFFFE#32), (3#5, 0x7FFFFFFC#32)]
    AccessPermitted s (s.effAddr 1#5 0#16) .byte .load ∧ AccessPermitted s (s.effAddr 2#5 0#16) .half .load ∧
      AccessPermitted s (s.effAddr 3#5 0#16) .word .load ∧
      AccessPermitted s (s.effAddr 1#5 0#16) .byte .store ∧
      AccessPermitted s (s.effAddr 2#5 0#16) .half .store ∧
      AccessPermitted s (s.effAddr 3#5 0#16) .word .store ∧
      AccessPermitted (sup []) ((sup []).effAddr 0#5 0xFFFC#16) .word .store := by decide

/-- LoadAfterStore: the last word of the user segment, from two base registers and displacements. -/
theorem witness_load_after_store :
    let s := start [(1#5, 0x7FFFFFFC#32), (2#5, 0x80000000#32)]
    AccessPermitted s (s.effAddr 1#5 0#16) .word .store ∧ AccessPermitted s (s.effAddr 1#5 0#16) .word .load ∧
      s.effAddr 2#5 0xFFFC#16 = s.effAddr 1#5 0#16 := by decide

/-- LoadAddressErrors: an odd half-word, a word at 2 modulo 4, the first byte of the system segment. -/
theorem witness_load_address :
    let s := start [(1#5, 0x80000000#32)]
    ¬ AddressLegal s (s.effAddr 1#5 0#16) .byte ∧ ¬ AddressLegal s (s.effAddr 0#5 1#16) .half ∧
      ¬ AddressLegal s (s.effAddr 0#5 2#16) .word := by decide

/-- StoreAddressErrors, each clause. -/
theorem witness_store_address :
    let s := start [(1#5, 0x80000000#32)]
    (s.effAddr 0#5 2#16).extractLsb' 0 2 ≠ 0#2 ∧ (s.effAddr 0#5 1#16).getLsbD 0 = true ∧
      (s.effAddr 1#5 0#16).getLsbD 31 = true ∧ s.privileged = false := by decide

/-- DataBusErrors, each width, load and store. -/
theorem witness_data_bus_error :
    let s := failing 0x00000100#32 (start [])
    let a := s.effAddr 0#5 0x100#16
    AddressLegal s a .byte ∧ AddressLegal s a .half ∧ AddressLegal s a .word ∧
      s.busError a .byte .load = true ∧ s.busError a .half .load = true ∧ s.busError a .word .load = true ∧
      s.busError a .byte .store = true ∧ s.busError a .half .store = true ∧
      s.busError a .word .store = true := by decide

/-- FetchAfterStore: R2 holds the word of ADD, stored at 0x100, where the next state runs it. -/
theorem witness_fetch_after_store :
    let s := start [(2#5, 0x00221820#32)]
    let t := next s (exec (.sw 0#5 2#5 0x100#16) s)
    let u := { start [] with mem := t.mem, pc := 0x00000100#32 }
    s.reg 2#5 = encode (.add 1#5 2#5 3#5) ∧ AccessPermitted s (s.effAddr 0#5 0x100#16) .word .store ∧
      u.mem = t.mem ∧ u.pc = s.effAddr 0#5 0x100#16 ∧ u.undisturbed = true ∧
      AccessPermitted u u.pc .word .fetch := by decide

/-- SoftwareInterrupts, first clause, both requests. -/
theorem witness_request :
    let s := sup [(2#5, 0x00000300#32)]
    s.userMode = false ∧ (s.reg 2#5).getLsbD (8 + 0) = true ∧ (s.reg 2#5).getLsbD (8 + 1) = true := by decide

/-- SoftwareInterrupts, second clause, the last request. -/
theorem witness_software_interrupt :
    let s := { open_ 0b00000010#8 with cr := ⟨0#6, 0b10#2, 0#4⟩ }
    s.cr.swi.getLsbD 1 = true ∧ s.sr.im.getLsbD 1 = true ∧ s.sr.ie = true ∧ s.sr.exl = false ∧
      s.sr.erl = false ∧ s.pinsNow.reset = false := by decide

/-- SoftwareInterrupts, third clause: `mtc0 $2, $13`. -/
theorem witness_request_written :
    let s := (sup [(2#5, 0x00000300#32)]).placeWord 0x40826800#32
    ∃ t, step s = .next t ∧ t.cr.swi ≠ s.cr.swi := ⟨_, rfl, by decide⟩

/-- StepKeepsTheInvariant: a state with bytes in memory takes a step. -/
theorem witness_invariant :
    let s := ready 0x00221820#32 []
    s.inv = true ∧ s.mem ≠ [] ∧ ∃ t, step s = .next t := ⟨by decide, by decide, _, rfl⟩

/-- ResetHasTheInvariant, second clause: a launch with a byte at each end of memory. -/
theorem witness_launch :
    (Launch.mk 0#32 [(0, 0x01#8), (0xFFFFFFFF, 0xFF#8)] Config.settings [] []).initialMemory.wf = true := by
  decide

/-- HardwiredStaysFixed: a state is reached by one step. -/
theorem witness_reaches : ∃ t, Reaches (start []) t ∧ t ≠ start [] :=
  ⟨_, .next (.refl _) rfl, by decide⟩

/-- RunEndsAtTheFirstHaltingState, each clause: HALT is reached in the one step the run has, or one step short. -/
theorem witness_run :
    let halt := fun s : State => s.pc == 0x00400004#32
    (∃ t, runUntil halt 1 (ready 0x00221820#32 []) = .halted t) ∧
      ∃ t, runUntil halt 0 (ready 0x00221820#32 []) = .going t := ⟨⟨_, rfl⟩, _, rfl⟩

/-- OnlyStoresWriteMemory: an SB that changes a byte. -/
theorem witness_store :
    let s := start [(2#5, 0xAB#32)]
    ∃ t, exec (.sb 0#5 2#5 0x100#16) s = .next t ∧
      t.mem.byteAt 0x00000100#32 ≠ s.mem.byteAt 0x00000100#32 := ⟨_, rfl, by decide⟩

/-- OnlySixInstructionsWriteHiLo: a MULT that changes both. -/
theorem witness_hi_lo :
    let s := start [(1#5, 0x80000001#32), (2#5, 2#32)]
    ∃ t, exec (.mult 1#5 2#5) s = .next t ∧ t.hi ≠ s.hi ∧ t.lo ≠ s.lo :=
  ⟨_, rfl, by decide, by decide⟩

/-- BarWrittenOnlyByAddressErrors: a misaligned LW, and an MTC0 to BAR. -/
theorem witness_bar :
    let s := ready 0x8C020001#32 []
    let u := (sup [(2#5, 5#32)]).placeWord 0x40824000#32
    (∃ t, step s = .next t ∧ t.bar ≠ s.bar) ∧ ∃ t, step u = .next t ∧ t.bar ≠ u.bar :=
  ⟨⟨_, rfl, by decide⟩, _, rfl, by decide⟩

/-- ModeChanges, first clause: a SYSCALL, and RESET. -/
theorem witness_to_supervisor :
    let s := ready 0x0000000C#32 []
    let u := pinned (start []) 0#6 true
    s.userMode = true ∧ (∃ t, step s = .next t ∧ t.userMode = false) ∧ u.userMode = true ∧
      ∃ t, step u = .next t ∧ t.userMode = false :=
  ⟨by decide, ⟨_, rfl, by decide⟩, by decide, _, rfl, by decide⟩

/-- ModeChanges, second clause: an ERET, and an MTC0 to SR. -/
theorem witness_to_user :
    let s := { (sup []).placeWord 0x42000018#32 with sr := ⟨0#8, true, false, true, false⟩ }
    let u := (sup [(2#5, 0x10#32)]).placeWord 0x40826000#32
    s.userMode = false ∧ (∃ t, step s = .next t ∧ t.userMode = true) ∧ u.userMode = false ∧
      ∃ t, step u = .next t ∧ t.userMode = true :=
  ⟨by decide, ⟨_, rfl, by decide⟩, by decide, _, rfl, by decide⟩

/-- UserModeKeepsTheSystemSegment and UserModeKeepsTheCp0Registers: a user SW that stays in user mode. -/
theorem witness_user_step :
    let s := ready 0xAC020100#32 [(2#5, 7#32)]
    s.userMode = true ∧ (∃ t, step s = .next t ∧ t.userMode = true) ∧
      0x80000000 ≤ (0x80000000#32 : Word).toNat := ⟨by decide, ⟨_, rfl, by decide⟩, by decide⟩

/-- Two states that differ only where memory does at an address of the system segment. -/
theorem same_setByte (s : State) (a : Word) (b : Byte) (h : inSystemSegment a = true) :
    SameToUser s { s with mem := s.mem.setByte a b } := by
  refine ⟨rfl, rfl, rfl, rfl, rfl, rfl, rfl, rfl, rfl, rfl, rfl, rfl, rfl, rfl, fun c hc => ?_⟩
  have hne : c ≠ a := fun hca => by rw [hca, h] at hc; cases hc
  exact (Memory.byteAt_setByte s.mem a c b ▸ if_neg hne).symm

/-- UserModeLearnsNothingOfTheSystemSegment: two different states that are the same to a user. -/
theorem witness_same_to_user :
    let s := ready 0x8C020100#32 []
    let s' := { s with mem := s.mem.setByte 0x80000000#32 0xAB#8 }
    s.userMode = true ∧ SameToUser s s' ∧ s ≠ s' ∧ (∃ t, step s = .next t) ∧ ∃ t, step s' = .next t :=
  ⟨by decide, same_setByte _ _ _ (by decide), by decide, ⟨_, rfl⟩, _, rfl⟩

end Sys2Proof.Tests
end

section
/-! PROOFS. Taking an exception, a system call or an interrupt (60_exceptions.md): first the facts about trap
entry, the boundary, the decoder and the stores, then the statements they settle. -/

namespace Sys2Proof.Machine

variable {s : State}

/-! ## Trap entry -/

/-- The frame of exception entry, with the cause and the bad address of the exception (R310). -/
theorem trapsTo_raise (s : State) (e : Exc) : TrapsTo s e.cause.code s.pc e.badAddr (s.raise e) :=
  trapsTo_enterGiet s e.cause s.pc e.badAddr

/-- The frame of system-call entry (R311). -/
theorem trapsTo_enterSystemCall (s : State) (c : Cause) :
    TrapsTo s c.code (s.pc + 4#32) none (s.enterSystemCall c) :=
  trapsTo_enterGiet s c (s.pc + 4#32) none

/-- An exception leaves the pins alone: the next boundary samples what it would have sampled. -/
@[simp] theorem State.raise_pinsNow (s : State) (e : Exc) : (s.raise e).pinsNow = s.pinsNow := rfl

@[simp] theorem State.raise_privileged (s : State) (e : Exc) : (s.raise e).privileged = true :=
  State.enterGiet_privileged s e.cause s.pc e.badAddr

/-! ## When an interrupt is taken -/

/-- The bits of the requests: the lines above the two software requests (R320). -/
theorem CauseReg.getLsbD_requests (c : CauseReg) (k : Nat) :
    c.requests.getLsbD k = if k < 2 then c.swi.getLsbD k else c.irq.getLsbD (k - 2) :=
  BitVec.getLsbD_append

/-- Some unmasked request is pending exactly when a line `i` meets mask bit `i + 2`, or a software request
`j` meets mask bit `j` (R320). -/
theorem CauseReg.requests_and_ne_zero_iff (c : CauseReg) (im : BitVec 8) :
    c.requests &&& im ≠ 0#8 ↔
      (∃ i, i < 6 ∧ c.irq.getLsbD i = true ∧ im.getLsbD (i + 2) = true) ∨
        ∃ j, j < 2 ∧ c.swi.getLsbD j = true ∧ im.getLsbD j = true := by
  constructor
  · intro hne
    by_contra hnone
    refine hne (BitVec.eq_of_getLsbD_eq fun k hk => ?_)
    rw [BitVec.getLsbD_and, CauseReg.getLsbD_requests, BitVec.getLsbD_zero, Bool.and_eq_false_imp]
    intro hreq
    refine Bool.eq_false_iff.mpr fun him => hnone ?_
    split at hreq
    · next hsoft => exact .inr ⟨k, hsoft, hreq, him⟩
    · next hline => exact .inl ⟨k - 2, by omega, hreq, by rwa [Nat.sub_add_cancel (by omega)]⟩
  · intro hsome hzero
    have hmasked (k : Nat) (hreq : c.requests.getLsbD k = true) : im.getLsbD k = false := by
      have hbit : (c.requests &&& im).getLsbD k = false := by rw [hzero, BitVec.getLsbD_zero]
      rwa [BitVec.getLsbD_and, hreq, Bool.true_and] at hbit
    rcases hsome with ⟨i, -, hirq, him⟩ | ⟨j, hj, hswi, him⟩
    · have hreq : c.requests.getLsbD (i + 2) = true := by simpa [CauseReg.getLsbD_requests] using hirq
      exact Bool.eq_false_iff.mp (hmasked (i + 2) hreq) him
    · have hreq : c.requests.getLsbD j = true := by rwa [CauseReg.getLsbD_requests, if_pos hj]
      exact Bool.eq_false_iff.mp (hmasked j hreq) him

/-- The formula of R320 over the levels, the requests and their mask bits. -/
theorem interruptTaken_iff :
    s.interruptTaken = true ↔
      s.sr.ie = true ∧ s.sr.exl = false ∧ s.sr.erl = false ∧
        ((∃ i, i < 6 ∧ s.cr.irq.getLsbD i = true ∧ s.sr.im.getLsbD (i + 2) = true) ∨
          ∃ j, j < 2 ∧ s.cr.swi.getLsbD j = true ∧ s.sr.im.getLsbD j = true) := by
  rw [← CauseReg.requests_and_ne_zero_iff]
  simp [State.interruptTaken, and_assoc]

/-- No interrupt is taken at exception level (R320). -/
theorem interruptTaken_of_exl (h : s.sr.exl = true) : s.interruptTaken = false := by
  simp [State.interruptTaken, h]

/-- Without RESET, an interrupt that is taken ends the boundary. -/
theorem boundary_of_interruptTaken (hreset : s.pinsNow.reset = false)
    (h : s.sampled.interruptTaken = true) : s.boundary = .ended s.sampled.enterInterrupt :=
  boundary_ended.mpr (.inr ⟨hreset, h, rfl⟩)

/-- Without RESET and without an interrupt, the instruction at pc runs. -/
theorem boundary_of_not_interruptTaken (hreset : s.pinsNow.reset = false)
    (h : s.sampled.interruptTaken = false) : s.boundary = .runs s.sampled :=
  boundary_runs.mpr ⟨hreset, h, rfl⟩

/-- When the boundary ends the step, the step is what it ended in. -/
theorem step_of_ended {t : State} (h : s.boundary = .ended t) : step s = .next t := by
  unfold step
  rw [h]

/-! ## Illegal words -/

/-- A word of the family SPECIAL that decodes has none of the FUNC cells R120 lists. -/
theorem not_illegalWord_of_decodeSpecial {w : Word} {i : Instr} (hop : opcodOf w = 0b000000#6)
    (h : decodeSpecial w = .ok i) : illegalWord w = false := by
  unfold decodeSpecial at h
  unfold illegalWord
  rw [hop]
  split at h
  case h_29 => cases h
  all_goals
    next hfunc =>
    rw [hfunc]
    decide

/-- A word that decodes is none of those R120 lists. -/
theorem not_illegalWord_of_decodeLiteral {w : Word} {i : Instr} (h : decodeLiteral w = .ok i) :
    illegalWord w = false := by
  unfold decodeLiteral at h
  split at h
  case h_1 hop => exact not_illegalWord_of_decodeSpecial hop h
  case h_26 => cases h
  all_goals
    next hop =>
    unfold illegalWord
    rw [hop]
    rfl

/-- The processor reads an illegal word as RI, under both settings of DECODE_STRICT (R307). -/
theorem ofDecode_of_illegalWord {w : Word} (strict : Bool) (h : illegalWord w = true) :
    Fetched.ofDecode (decodeWith strict w) = .trap .ri := by
  cases hdec : decodeLiteral w with
  | ok i => exact absurd h (Bool.eq_false_iff.mp (not_illegalWord_of_decodeLiteral hdec))
  | error r =>
    rw [decodeWith_error hdec]
    rcases decodeLiteral_error hdec with rfl | ⟨-, rfl⟩ <;> rfl

/-- A permitted fetch of an illegal word raises RI. -/
theorem fetch_of_illegalWord (hacc : AccessPermitted s s.pc .word .fetch)
    (h : illegalWord (s.mem.wordAt s.pc) = true) : s.fetch = .trap .ri := by
  rw [fetch_eq, accessExc_none_iff.mpr hacc]
  exact ofDecode_of_illegalWord _ h

/-- Sampling the lines changes nothing an access is checked against. -/
theorem accessPermitted_sampled {a : Word} {w : Width} {k : AccessKind} :
    AccessPermitted s.sampled a w k ↔ AccessPermitted s a w k := Iff.rfl

/-! ## The family COPRO -/

theorem decodeLiteral_of_copro {w : Word} (hop : opcodOf w = 0b010000#6) :
    decodeLiteral w = .ok (decodeCopro w) := by
  unfold decodeLiteral
  rw [hop]
  rfl

/-- The family COPRO has three instructions (R113). -/
theorem decodeCopro_cases (w : Word) :
    (∃ rt rd, decodeCopro w = .mfc0 rt rd ∨ decodeCopro w = .mtc0 rt rd) ∨ decodeCopro w = .eret := by
  unfold decodeCopro
  split
  · exact .inr rfl
  · exact .inl ⟨_, _, .inl rfl⟩
  · exact .inl ⟨_, _, .inr rfl⟩

/-- A privileged instruction raises CPU in user mode, whatever its effect would be (R308). -/
theorem ifPrivileged_traps (effect : Result) (h : s.userMode = true) :
    CompletesWith (s.ifPrivileged effect) (TrapsTo s 0b1011#4 s.pc none) := by
  have hpriv : s.privileged = false := by simpa [userMode_eq] using h
  exact ⟨_, ifPrivileged_next.mpr (.inr ⟨hpriv, rfl⟩), trapsTo_raise s .cpu⟩

/-! ## Stores to illegal addresses -/

/-- A store to an illegal address raises ADES (R303). -/
theorem storeInto_illegal {a : Word} {w : Width} (m : Memory) (h : ¬ AddressLegal s a w) :
    CompletesWith (s.storeInto a w m) (TrapsTo s 0b0101#4 s.pc (some a)) :=
  ⟨_, storeInto_traps (accessExc_illegal h), trapsTo_raise s (.ades a)⟩

/-- A word at an address whose two low bits are not 0 is misaligned (R67). -/
theorem not_addressLegal_word {a : Word} (h : a.extractLsb' 0 2 ≠ 0#2) : ¬ AddressLegal s a .word := by
  rintro ⟨haligned, -⟩
  have hmod : a.toNat % 4 = 0 := haligned
  refine h (BitVec.eq_of_toNat_eq ?_)
  simpa [BitVec.extractLsb'_toNat] using hmod

/-- A half-word at an odd address is misaligned (R67). -/
theorem not_addressLegal_half {a : Word} (h : a.getLsbD 0 = true) : ¬ AddressLegal s a .half := by
  rintro ⟨haligned, -⟩
  have heven : a.toNat % 2 = 0 := haligned
  simp [BitVec.getLsbD, Nat.testBit_zero, heven] at h

/-- An address of the system segment is illegal when not privileged, for every width (R70). -/
theorem not_addressLegal_of_system {a : Word} {w : Width} (hseg : a.getLsbD 31 = true)
    (hpriv : s.privileged = false) : ¬ AddressLegal s a w := by
  rintro ⟨-, hmode⟩
  have huser : s.userMode = false := hmode ((inSystemSegment_iff a).mp hseg)
  rw [userMode_eq, hpriv] at huser
  cases huser

end Sys2Proof.Machine

/-! ## The statements -/

namespace Sys2Proof.Proofs

open Sys2Proof.Machine

/-- Settles O9: the boundary of R12 branches on `interruptTaken`, which is the formula of R320 bit by bit. -/
theorem interruptTakenExactlyWhenEnabled : Obligations.InterruptTakenExactlyWhenEnabled := by
  intro s hreset taken
  have htaken : s.sampled.interruptTaken = true ↔ taken := interruptTaken_iff
  refine ⟨fun h => ?_, fun h => ?_⟩
  · have hended := boundary_of_interruptTaken hreset (htaken.mpr h)
    exact ⟨hended, step_of_ended hended⟩
  · exact boundary_of_not_interruptTaken hreset (Bool.eq_false_iff.mpr (mt htaken.mp h))

/-- Settles O12: the literal decoder accepts no word of R120, and what it rejects raises RI. -/
theorem illegalWordTraps : Obligations.IllegalWordTraps := by
  intro s hund hacc hill
  have hfetch : s.sampled.fetch = .trap .ri := fetch_of_illegalWord (accessPermitted_sampled.mpr hacc) hill
  exact ⟨_, step_of_trap (boundary_of_undisturbed hund) hfetch, trapsTo_raise s.sampled .ri⟩

/-- Settles O16: OPCOD 010000 decodes to one of three instructions, each guarded by `ifPrivileged`. -/
theorem privilegedInstructionsTrapInUserMode : Obligations.PrivilegedInstructionsTrapInUserMode := by
  intro s w i strict huser hdec hop
  have hi : decodeCopro w = i :=
    Except.ok.inj ((decodeLiteral_of_copro hop).symm.trans (decodeLiteral_of_decodeWith hdec))
  have hcases := decodeCopro_cases w
  rw [hi] at hcases
  refine ⟨hcases, ?_⟩
  rcases hcases with ⟨rt, rd, rfl | rfl⟩ | rfl
  · exact ifPrivileged_traps (s.readCp0 rt rd) huser
  · exact ifPrivileged_traps (s.writeCp0 rd (s.reg rt)) huser
  · exact ifPrivileged_traps (.next s.returnFromGiet) huser

/-- Settles O38: each of the three conditions of R303 makes the address illegal for its width. -/
theorem storeAddressErrors : Obligations.StoreAddressErrors := by
  intro s rs rt imd16 a traps
  refine ⟨fun hlow => ?_, fun hodd => ?_, fun hseg hpriv => ⟨?_, ?_, ?_⟩⟩
  · exact storeInto_illegal _ (not_addressLegal_word hlow)
  · exact storeInto_illegal _ (not_addressLegal_half hodd)
  all_goals exact storeInto_illegal _ (not_addressLegal_of_system hseg hpriv)

/-- Settles O14: `raise` is trap entry, whose frame is said once, and EXL = 1 keeps interrupts out. -/
theorem exceptionEntry : Obligations.ExceptionEntry := by
  refine ⟨fun s a => ?_, fun s e => ⟨State.raise_privileged s e, fun hreset => ⟨?_, rfl⟩⟩⟩
  · exact ⟨trapsTo_raise s (.adel a), trapsTo_raise s (.ades a), trapsTo_raise s .ibe, trapsTo_raise s .dbe,
      trapsTo_raise s .ri, trapsTo_raise s .cpu, trapsTo_raise s .ovf⟩
  · exact boundary_of_not_interruptTaken hreset (interruptTaken_of_exl rfl)

/-- Settles O15: both instructions answer the state of system-call entry. -/
theorem systemCallEntry : Obligations.SystemCallEntry :=
  fun s => ⟨⟨_, rfl, trapsTo_enterSystemCall s .sys⟩, ⟨_, rfl, trapsTo_enterSystemCall s .bp⟩⟩

end Sys2Proof.Proofs
end

section
/-! PROOFS. Reset and hazards (70_reset_and_hazards.md): the boundary at which RESET is active and the levels RESET
leaves, then the statement they settle. -/

namespace Sys2Proof.Machine

variable {s : State}

/-- An active RESET ends the boundary, whatever the lines and the masks say (R12, R360). -/
theorem boundary_of_reset (hreset : s.pinsNow.reset = true) : s.boundary = .ended s.passBoundary.applyReset :=
  boundary_ended.mpr (.inl ⟨hreset, rfl⟩)

/-- With RESET active the step is the RESET action and nothing more. -/
theorem step_of_reset (hreset : s.pinsNow.reset = true) : step s = .next s.passBoundary.applyReset :=
  step_of_ended (boundary_of_reset hreset)

/-- The word of SR after RESET: bit 2, which is ERL, and no other (R360). -/
theorem StatusReg.afterReset_toWord : StatusReg.afterReset.toWord = 0x00000004#32 := by decide

/-- No interrupt is taken at reset level (R320). -/
theorem interruptTaken_of_erl (h : s.sr.erl = true) : s.interruptTaken = false := by
  simp [State.interruptTaken, h]

/-- RESET masks interrupts by raising ERL (R320, R360). -/
@[simp] theorem State.applyReset_interruptTaken (s : State) : s.applyReset.interruptTaken = false :=
  interruptTaken_of_erl rfl

end Sys2Proof.Machine

/-! ## The statements -/

namespace Sys2Proof.Proofs

open Sys2Proof.Machine

/-- Settles O8: the step is `applyReset` past the boundary; SR is `afterReset`, whose ERL makes the state privileged
and masks interrupts, pc is the boot entry, and every field of R360's list is passed through. -/
theorem resetAction : Obligations.ResetAction := by
  intro s hreset
  have hilo : HiLoKept s s.passBoundary.applyReset := by simp [HiLoKept]
  have regs : RegsKept s s.passBoundary.applyReset := fun r => by simp
  have mem : MemKept s s.passBoundary.applyReset := fun a => by simp
  refine ⟨_, step_of_reset hreset, StatusReg.afterReset_toWord, rfl, rfl, rfl, rfl, rfl,
    State.applyReset_privileged _, State.applyReset_interruptTaken _, State.applyReset_pc _,
    ?epc, ?bar, ?xcode, ?swi, regs, hilo, mem⟩
  case epc | bar | xcode | swi => simp

end Sys2Proof.Proofs
end

section
/-! PROOFS. Encoding and decoding (30_encoding.md). An instruction is determined by two groups of bits of its word:
the selecting bits of its row, which the decoder branches on, and the bits of its operand fields. First the fields
under a mask, then what each group of bits fixes, then the statements. -/

namespace Sys2Proof

variable {w w' m : Word} {i : Instr}

/-! ## Fields of words that agree under a mask -/

/-- A word that has the values `v` under a mask has the fields of `v` that the mask covers. -/
theorem extractLsb'_of_and_eq {v : Word} {start len : Nat} (hm : m.extractLsb' start len = BitVec.allOnes len)
    (h : w &&& m = v) : w.extractLsb' start len = v.extractLsb' start len := by
  rw [← h, BitVec.extractLsb'_and, hm, BitVec.and_allOnes]

/-- A word that has the values `v` under a mask has the bits of `v` that the mask covers. -/
theorem getLsbD_of_and_eq {v : Word} {k : Nat} (hm : m.getLsbD k = true) (h : w &&& m = v) :
    w.getLsbD k = v.getLsbD k := by
  rw [← h, BitVec.getLsbD_and, hm, Bool.and_true]

/-- Words that agree under a mask agree on every field the mask covers. -/
theorem extractLsb'_eq_of_and_eq {start len : Nat} (hm : m.extractLsb' start len = BitVec.allOnes len)
    (h : w &&& m = w' &&& m) : w.extractLsb' start len = w'.extractLsb' start len :=
  (extractLsb'_of_and_eq hm h).trans (extractLsb'_of_and_eq hm rfl).symm

/-- Words agree under two masks together exactly when they agree under each. -/
theorem and_or_eq_iff {m₁ m₂ : Word} :
    w &&& (m₁ ||| m₂) = w' &&& (m₁ ||| m₂) ↔ w &&& m₁ = w' &&& m₁ ∧ w &&& m₂ = w' &&& m₂ := by
  constructor
  · intro h
    constructor
    all_goals
      refine BitVec.eq_of_getLsbD_eq fun k hk => ?_
      have hbit := congrArg (BitVec.getLsbD · k) h
      simp only [BitVec.getLsbD_and, BitVec.getLsbD_or] at hbit ⊢
      revert hbit
      cases m₁.getLsbD k <;> cases m₂.getLsbD k <;> simp
  · rintro ⟨h₁, h₂⟩
    rw [BitVec.and_or_distrib_left, BitVec.and_or_distrib_left, h₁, h₂]

/-! ## An instruction with the operands of a word -/

/-- The instruction of the row of `i` whose operands are the fields of `w`: what literal decoding makes of a word
with the selecting bits of that row (R115). -/
def Instr.withFields (w : Word) : Instr → Instr
  | .sll .. => .sll (rtOf w) (rdOf w) (shOf w)
  | .srl .. => .srl (rtOf w) (rdOf w) (shOf w)
  | .sra .. => .sra (rtOf w) (rdOf w) (shOf w)
  | .sllv .. => .sllv (rsOf w) (rtOf w) (rdOf w)
  | .srlv .. => .srlv (rsOf w) (rtOf w) (rdOf w)
  | .srav .. => .srav (rsOf w) (rtOf w) (rdOf w)
  | .jr .. => .jr (rsOf w)
  | .jalr .. => .jalr (rsOf w) (rdOf w)
  | .syscall => .syscall
  | .breakpoint => .breakpoint
  | .mfhi .. => .mfhi (rdOf w)
  | .mthi .. => .mthi (rsOf w)
  | .mflo .. => .mflo (rdOf w)
  | .mtlo .. => .mtlo (rsOf w)
  | .mult .. => .mult (rsOf w) (rtOf w)
  | .multu .. => .multu (rsOf w) (rtOf w)
  | .div .. => .div (rsOf w) (rtOf w)
  | .divu .. => .divu (rsOf w) (rtOf w)
  | .add .. => .add (rsOf w) (rtOf w) (rdOf w)
  | .addu .. => .addu (rsOf w) (rtOf w) (rdOf w)
  | .sub .. => .sub (rsOf w) (rtOf w) (rdOf w)
  | .subu .. => .subu (rsOf w) (rtOf w) (rdOf w)
  | .and .. => .and (rsOf w) (rtOf w) (rdOf w)
  | .or .. => .or (rsOf w) (rtOf w) (rdOf w)
  | .xor .. => .xor (rsOf w) (rtOf w) (rdOf w)
  | .nor .. => .nor (rsOf w) (rtOf w) (rdOf w)
  | .slt .. => .slt (rsOf w) (rtOf w) (rdOf w)
  | .sltu .. => .sltu (rsOf w) (rtOf w) (rdOf w)
  | .bltz .. => .bltz (rsOf w) (imd16Of w)
  | .bgez .. => .bgez (rsOf w) (imd16Of w)
  | .bltzal .. => .bltzal (rsOf w) (imd16Of w)
  | .bgezal .. => .bgezal (rsOf w) (imd16Of w)
  | .j .. => .j (imd26Of w)
  | .jal .. => .jal (imd26Of w)
  | .beq .. => .beq (rsOf w) (rtOf w) (imd16Of w)
  | .bne .. => .bne (rsOf w) (rtOf w) (imd16Of w)
  | .blez .. => .blez (rsOf w) (imd16Of w)
  | .bgtz .. => .bgtz (rsOf w) (imd16Of w)
  | .addi .. => .addi (rsOf w) (rtOf w) (imd16Of w)
  | .addiu .. => .addiu (rsOf w) (rtOf w) (imd16Of w)
  | .slti .. => .slti (rsOf w) (rtOf w) (imd16Of w)
  | .sltiu .. => .sltiu (rsOf w) (rtOf w) (imd16Of w)
  | .andi .. => .andi (rsOf w) (rtOf w) (imd16Of w)
  | .ori .. => .ori (rsOf w) (rtOf w) (imd16Of w)
  | .xori .. => .xori (rsOf w) (rtOf w) (imd16Of w)
  | .lui .. => .lui (rtOf w) (imd16Of w)
  | .mfc0 .. => .mfc0 (rtOf w) (rdOf w)
  | .mtc0 .. => .mtc0 (rtOf w) (rdOf w)
  | .eret => .eret
  | .lb .. => .lb (rsOf w) (rtOf w) (imd16Of w)
  | .lh .. => .lh (rsOf w) (rtOf w) (imd16Of w)
  | .lw .. => .lw (rsOf w) (rtOf w) (imd16Of w)
  | .lbu .. => .lbu (rsOf w) (rtOf w) (imd16Of w)
  | .lhu .. => .lhu (rsOf w) (rtOf w) (imd16Of w)
  | .sb .. => .sb (rsOf w) (rtOf w) (imd16Of w)
  | .sh .. => .sh (rsOf w) (rtOf w) (imd16Of w)
  | .sw .. => .sw (rsOf w) (rtOf w) (imd16Of w)

@[simp] theorem Instr.row_withFields (w : Word) (i : Instr) : (i.withFields w).row = i.row := by
  cases i <;> rfl

/-! ## The selecting bits -/

/-- A word with the selecting bits of a row decodes to an instruction of that row, with the fields of the word as
its operands (R110 to R115). -/
theorem decodeLiteral_of_rowBits (h : w &&& i.row.1 = i.row.2) : decodeLiteral w = .ok (i.withFields w) := by
  unfold decodeLiteral
  cases i
  all_goals
    dsimp only [Instr.row] at h
    have hop : opcodOf w = _ := extractLsb'_of_and_eq rfl h
    rw [hop]
  case bltz | bgez | bltzal | bgezal =>
    have h20 := getLsbD_of_and_eq (k := 20) rfl h
    have h16 := getLsbD_of_and_eq (k := 16) rfl h
    change Except.ok (decodeBcond w) = _
    rw [decodeBcond, h20, h16]
    rfl
  case mfc0 | mtc0 =>
    have h25 := getLsbD_of_and_eq (k := 25) rfl h
    have h23 := getLsbD_of_and_eq (k := 23) rfl h
    change Except.ok (decodeCopro w) = _
    rw [decodeCopro, h25, h23]
    rfl
  case eret =>
    have h25 := getLsbD_of_and_eq (k := 25) rfl h
    change Except.ok (decodeCopro w) = _
    rw [decodeCopro, h25]
    rfl
  case j | jal | beq | bne | blez | bgtz | addi | addiu | slti | sltiu | andi | ori | xori | lui | lb | lh | lw |
      lbu | lhu | sb | sh | sw => rfl
  all_goals
    have hfunc : funcOf w = _ := extractLsb'_of_and_eq rfl h
    change decodeSpecial w = _
    rw [decodeSpecial, hfunc]
    rfl

/-! ## The operand bits -/

theorem Instr.withFields_congr (h : w &&& i.operandBits = w' &&& i.operandBits) :
    i.withFields w = i.withFields w' := by
  cases i
  all_goals
    dsimp only [Instr.operandBits] at h
    dsimp only [Instr.withFields]
  all_goals
    congr 1
    all_goals exact extractLsb'_eq_of_and_eq rfl h

/-- The canonical word of an instruction holds its operands in their fields (R101, R116). -/
theorem Instr.withFields_encode (i : Instr) : i.withFields (encode i) = i := by
  cases i <;> simp [Instr.withFields, encode, special]

/-- The canonical word of an instruction has the selecting bits of its row: the laws of Laws/PerInstr.lean together,
by format (R115). -/
theorem encode_rowBits (i : Instr) : encode i &&& i.row.1 = i.row.2 := by
  cases i
  case bltz | bgez | bltzal | bgezal => exact (Laws.bcond_mask ..).trans rfl
  case mfc0 | mtc0 => exact (Laws.copro_mask ..).trans rfl
  case eret => rfl
  case j | jal => exact (Laws.formatJ_mask ..).trans rfl
  case beq | bne | blez | bgtz | addi | addiu | slti | sltiu | andi | ori | xori | lui | lb | lh | lw | lbu | lhu |
      sb | sh | sw => exact (Laws.formatI_mask ..).trans rfl
  all_goals exact (Laws.special_mask ..).trans rfl

/-- Decoding undoes encoding, whatever the other bits of the word (R115, R116). -/
theorem decodeLiteral_of_agree (hrow : w &&& i.row.1 = encode i &&& i.row.1)
    (hoperands : w &&& i.operandBits = encode i &&& i.operandBits) : decodeLiteral w = .ok i := by
  rw [decodeLiteral_of_rowBits (hrow.trans (encode_rowBits i)), Instr.withFields_congr hoperands,
    Instr.withFields_encode]

/-! ## A word that decodes agrees with the canonical word -/

/-- Words agree under a mask when their Format R fields do. -/
theorem and_eq_of_formatR (hop : opcodOf w &&& opcodOf m = opcodOf w' &&& opcodOf m)
    (hrs : rsOf w &&& rsOf m = rsOf w' &&& rsOf m) (hrt : rtOf w &&& rtOf m = rtOf w' &&& rtOf m)
    (hrd : rdOf w &&& rdOf m = rdOf w' &&& rdOf m) (hsh : shOf w &&& shOf m = shOf w' &&& shOf m)
    (hfunc : funcOf w &&& funcOf m = funcOf w' &&& funcOf m) : w &&& m = w' &&& m := by
  rw [eq_formatR w, eq_formatR w', eq_formatR m, formatR_and, formatR_and, hop, hrs, hrt, hrd, hsh, hfunc]

/-- Words agree under a mask when their Format I fields do. -/
theorem and_eq_of_formatI (hop : opcodOf w &&& opcodOf m = opcodOf w' &&& opcodOf m)
    (hrs : rsOf w &&& rsOf m = rsOf w' &&& rsOf m) (hrt : rtOf w &&& rtOf m = rtOf w' &&& rtOf m)
    (himd : imd16Of w &&& imd16Of m = imd16Of w' &&& imd16Of m) : w &&& m = w' &&& m := by
  rw [eq_formatI w, eq_formatI w', eq_formatI m, formatI_and, formatI_and, hop, hrs, hrt, himd]

/-- Words agree under a mask when their Format J fields do. -/
theorem and_eq_of_formatJ (hop : opcodOf w &&& opcodOf m = opcodOf w' &&& opcodOf m)
    (himd : imd26Of w &&& imd26Of m = imd26Of w' &&& imd26Of m) : w &&& m = w' &&& m := by
  rw [eq_formatJ w, eq_formatJ w', eq_formatJ m, formatJ_and, formatJ_and, hop, himd]

/-- Under a mask of zeros every two fields agree. -/
theorem and_eq_and_of_zero {n : Nat} {x y z : BitVec n} (hz : z = 0#n) : x &&& z = y &&& z := by
  rw [hz, BitVec.and_zero, BitVec.and_zero]

/-- The selecting bits of the family BCOND, in the field RT (R112). -/
theorem rtOf_and_bcond {y z : RegNum} (hz : z = 0b10001#5) (h20 : w.getLsbD 20 = y.getLsbD 4)
    (h16 : w.getLsbD 16 = y.getLsbD 0) : rtOf w &&& z = y &&& z := by
  subst hz
  refine BitVec.eq_of_getLsbD_eq fun k hk => ?_
  interval_cases k <;> simp_all [rtOf]

/-- The selecting bits of MFC0 and MTC0, in the field RS (R113). -/
theorem rsOf_and_copro {y z : RegNum} (hz : z = 0b10100#5) (h25 : w.getLsbD 25 = y.getLsbD 4)
    (h23 : w.getLsbD 23 = y.getLsbD 2) : rsOf w &&& z = y &&& z := by
  subst hz
  refine BitVec.eq_of_getLsbD_eq fun k hk => ?_
  interval_cases k <;> simp_all [rsOf]

/-- The selecting bit of ERET, in the field RS (R113). -/
theorem rsOf_and_eret {y z : RegNum} (hz : z = 0b10000#5) (h25 : w.getLsbD 25 = y.getLsbD 4) :
    rsOf w &&& z = y &&& z := by
  subst hz
  refine BitVec.eq_of_getLsbD_eq fun k hk => ?_
  interval_cases k <;> simp_all [rsOf]

/-- The bits of the word of an instruction that are not ignored. -/
def Instr.usedBits (i : Instr) : Word := i.row.1 ||| i.operandBits

/-- The family SPECIAL: a used field is OPCOD, FUNC or an operand, and the mask has zeros elsewhere. -/
theorem agree_of_decodeSpecial (hop : opcodOf w = 0b000000#6) (h : decodeSpecial w = .ok i) :
    w &&& i.usedBits = encode i &&& i.usedBits := by
  unfold decodeSpecial at h
  split at h
  case h_29 => cases h
  all_goals
    next hfunc =>
    cases h
    apply and_eq_of_formatR
    all_goals simp only [encode, special, opcodOf_formatR, rsOf_formatR, rtOf_formatR, rdOf_formatR, shOf_formatR,
      funcOf_formatR, hop, hfunc]
    all_goals
      dsimp only [Instr.usedBits, Instr.row, Instr.operandBits]
      exact and_eq_and_of_zero rfl

theorem agree_of_decodeBcond (hop : opcodOf w = 0b000001#6) (h : decodeBcond w = i) :
    w &&& i.usedBits = encode i &&& i.usedBits := by
  unfold decodeBcond at h
  split at h
  all_goals
    next h20 h16 =>
    subst h
    apply and_eq_of_formatI
    all_goals simp only [encode, opcodOf_formatI, rsOf_formatI, rtOf_formatI, imd16Of_formatI, hop]
    dsimp only [Instr.usedBits, Instr.row, Instr.operandBits]
    exact rtOf_and_bcond rfl h20 h16

theorem agree_of_decodeCopro (hop : opcodOf w = 0b010000#6) (h : decodeCopro w = i) :
    w &&& i.usedBits = encode i &&& i.usedBits := by
  unfold decodeCopro at h
  split at h
  all_goals
    subst h
    apply and_eq_of_formatR
    all_goals simp only [encode, opcodOf_formatR, rsOf_formatR, rtOf_formatR, rdOf_formatR, shOf_formatR,
      funcOf_formatR, hop]
    all_goals dsimp only [Instr.usedBits, Instr.row, Instr.operandBits]
  case h_1.hrs h25 => exact rsOf_and_eret rfl h25
  case h_2.hrs h25 h23 => exact rsOf_and_copro rfl h25 h23
  case h_3.hrs h25 h23 => exact rsOf_and_copro rfl h25 h23
  all_goals exact and_eq_and_of_zero rfl

/-- A word that decodes literally agrees with the canonical word of its instruction on the used bits (R116). -/
theorem agree_of_decodeLiteral (h : decodeLiteral w = .ok i) : w &&& i.usedBits = encode i &&& i.usedBits := by
  unfold decodeLiteral at h
  split at h
  case h_1 hop => exact agree_of_decodeSpecial hop h
  case h_2 hop => exact agree_of_decodeBcond hop (Except.ok.inj h)
  case h_17 hop => exact agree_of_decodeCopro hop (Except.ok.inj h)
  case h_26 => cases h
  case h_3 hop | h_4 hop =>
    cases h
    apply and_eq_of_formatJ
    all_goals simp only [encode, opcodOf_formatJ, imd26Of_formatJ, hop]
  all_goals
    next hop =>
    cases h
    apply and_eq_of_formatI
    all_goals simp only [encode, opcodOf_formatI, rsOf_formatI, rtOf_formatI, imd16Of_formatI, hop]
    all_goals
      dsimp only [Instr.usedBits, Instr.row, Instr.operandBits]
      exact and_eq_and_of_zero rfl

/-- Literal decoding reads exactly the used bits (R115, R116). -/
theorem decodeLiteral_iff : decodeLiteral w = .ok i ↔ w &&& i.usedBits = encode i &&& i.usedBits := by
  refine ⟨agree_of_decodeLiteral, fun h => ?_⟩
  obtain ⟨hrow, hoperands⟩ := and_or_eq_iff.mp h
  exact decodeLiteral_of_agree hrow hoperands

@[simp] theorem decodeLiteral_encode (i : Instr) : decodeLiteral (encode i) = .ok i := decodeLiteral_iff.mpr rfl

/-! ## Canonical words, and bytes -/

/-- The canonical word is accepted under both settings of DECODE_STRICT (R116). -/
@[simp] theorem decodeWith_encode (strict : Bool) (i : Instr) : decodeWith strict (encode i) = .ok i := by
  cases strict
  · rw [decodeWith_false, decodeLiteral_encode]
  · rw [decodeWith_true, decodeLiteral_encode]
    exact if_pos rfl

/-- Under DECODE_STRICT a word that is read literally and is not canonical is rejected by name (R116, D6). -/
theorem decodeWith_true_nonCanonical (h : decodeLiteral w = .ok i) (hne : w ≠ encode i) :
    decodeWith true w = .error (.nonCanonical w) := by
  rw [decodeWith_true, h]
  exact if_neg (Ne.symm hne)

/-- Under DECODE_STRICT only the canonical word of an instruction is accepted (R116, D6). -/
theorem decodeWith_true_iff : decodeWith true w = .ok i ↔ w = encode i := by
  refine ⟨fun h => ?_, fun h => h ▸ decodeWith_encode true i⟩
  by_contra hne
  rw [decodeWith_true_nonCanonical (decodeLiteral_of_decodeWith h) hne] at h
  cases h

/-- The bytes of a word make that word (R63, R64). -/
theorem wordOfBytes_bytes (w : Word) :
    wordOfBytes (w.extractLsb' 0 8) (w.extractLsb' 8 8) (w.extractLsb' 16 8) (w.extractLsb' 24 8) = w := by
  have h16 : w.extractLsb' 24 8 ++ w.extractLsb' 16 8 = w.extractLsb' 16 16 :=
    BitVec.extractLsb'_append_extractLsb'_eq_extractLsb' rfl
  have h8 : w.extractLsb' 16 16 ++ w.extractLsb' 8 8 = w.extractLsb' 8 24 :=
    BitVec.extractLsb'_append_extractLsb'_eq_extractLsb' rfl
  have h0 : w.extractLsb' 8 24 ++ w.extractLsb' 0 8 = w.extractLsb' 0 32 :=
    BitVec.extractLsb'_append_extractLsb'_eq_extractLsb' rfl
  rw [wordOfBytes, h16, h8, h0, BitVec.extractLsb'_eq_self]

/-- The bytes of a word decode as the word does, and the bytes after them are left (R100). -/
theorem decode_bytesOfWord (strict : Bool) (w : Word) (rest : List Byte) :
    decode strict (bytesOfWord w ++ rest) = (decodeWith strict w).map (·, rest) := by
  simp only [bytesOfWord, List.cons_append, List.nil_append, decode, wordOfBytes_bytes]
  cases decodeWith strict w <;> rfl

/-! ## The empty cells -/

/-- The values of OPCOD that select an instruction or a second-level table (R110). -/
def usedOpcodes : List (BitVec 6) :=
  [0, 1, 2, 3, 4, 5, 6, 7, 8, 9, 10, 11, 12, 13, 14, 15, 16, 32, 33, 35, 36, 37, 40, 41, 43]

/-- The values of FUNC that select an instruction of the family SPECIAL (R111). -/
def usedFunctions : List (BitVec 6) :=
  [0, 2, 3, 4, 6, 7, 8, 9, 12, 13, 16, 17, 18, 19, 24, 25, 26, 27, 32, 33, 34, 35, 36, 37, 38, 39, 42, 43]

/-- Every other value of OPCOD is one of the empty cells R120 (a) lists. -/
theorem emptyOpcode_listed : ∀ op : BitVec 6, op ∉ usedOpcodes →
    Machine.inRanges op.toNat [(0b010001, 0b011111), (0b100010, 0b100010), (0b100110, 0b100111),
      (0b101010, 0b101010), (0b101100, 0b101111), (0b110000, 0b111111)] = true := by decide

/-- Every other value of FUNC is one of the empty cells R120 (b) lists. -/
theorem emptyFunction_listed : ∀ f : BitVec 6, f ∉ usedFunctions →
    Machine.inRanges f.toNat [(0b000001, 0b000001), (0b000101, 0b000101), (0b001010, 0b001011),
      (0b001110, 0b001111), (0b010100, 0b010111), (0b011100, 0b011111), (0b101000, 0b101001),
      (0b101100, 0b101111), (0b110000, 0b111111)] = true := by decide

theorem function_unused_of_decodeSpecial_error {r : DecodeReject} (h : decodeSpecial w = .error r) :
    funcOf w ∉ usedFunctions := by
  unfold decodeSpecial at h
  split at h
  case h_29 =>
    simp only [usedFunctions, List.mem_cons, List.not_mem_nil, not_or]
    trivial
  all_goals cases h

theorem opcode_unused_of_decodeLiteral_error {r : DecodeReject} (h : decodeLiteral w = .error r)
    (hop : opcodOf w ≠ 0b000000#6) : opcodOf w ∉ usedOpcodes := by
  unfold decodeLiteral at h
  split at h
  case h_1 hop0 => exact absurd hop0 hop
  case h_26 =>
    simp only [usedOpcodes, List.mem_cons, List.not_mem_nil, not_or]
    trivial
  all_goals cases h

/-- A word that literal decoding rejects is one R120 lists: with `not_illegalWord_of_decodeLiteral`, exactly those
are. -/
theorem illegalWord_of_decodeLiteral_error {r : DecodeReject} (h : decodeLiteral w = .error r) :
    Machine.illegalWord w = true := by
  by_cases hop : opcodOf w = 0b000000#6
  · have hspecial : decodeSpecial w = .error r := by
      unfold decodeLiteral at h
      rwa [hop] at h
    have hfunc := emptyFunction_listed _ (function_unused_of_decodeSpecial_error hspecial)
    simp [Machine.illegalWord, hop, hfunc]
  · have hcell := emptyOpcode_listed _ (opcode_unused_of_decodeLiteral_error h hop)
    simp [Machine.illegalWord, hcell]

end Sys2Proof

namespace Sys2Proof.Machine

variable {s : State}

/-- When fetching is refused, so is the step. -/
theorem step_of_refuse {u : State} {r : Refusal} (hb : s.boundary = .runs u) (hf : u.fetch = .refuse r) :
    step s = .refused r := by
  unfold step
  rw [hb]
  dsimp only
  rw [hf]

/-- A permitted fetch gives what the word at pc decodes to. -/
theorem fetch_of_permitted (hacc : AccessPermitted s s.pc .word .fetch) :
    s.fetch = Fetched.ofDecode (decodeWith s.settings.decodeStrict (s.mem.wordAt s.pc)) := by
  rw [fetch_eq, accessExc_none_iff.mpr hacc]

end Sys2Proof.Machine

/-! ## The statements -/

namespace Sys2Proof.Proofs

open Sys2Proof.Machine

/-- Settles O2: the canonical word has its row's selecting bits and its operands in their fields, and is the word its
four bytes make. -/
theorem encodeThenDecodeGivesBack : Obligations.EncodeThenDecodeGivesBack := by
  intro i strict rest
  have hword := decodeWith_encode strict i
  refine ⟨hword, ?_⟩
  rw [decode_bytesOfWord, hword]
  rfl

/-- Settles O4: `usedBits` is what literal decoding reads. -/
theorem decodingIgnoresExactlyUnusedBits : Obligations.DecodingIgnoresExactlyUnusedBits := by
  intro w i
  rw [decodeWith_false]
  exact decodeLiteral_iff

/-- Settles O3: the strict decoder compares with the canonical word, and the processor refuses what it rejects by
name. -/
theorem strictDecodingIsCanonical : Obligations.StrictDecodingIsCanonical := by
  refine ⟨fun w i => decodeWith_true_iff, fun s i hstrict hund hacc hdec hne => ?_⟩
  have hreject := decodeWith_true_nonCanonical (decodeLiteral_of_decodeWith hdec) hne
  have hfetch : s.sampled.fetch = .refuse (.nonCanonicalWord (s.mem.wordAt s.pc)) := by
    rw [fetch_of_permitted (accessPermitted_sampled.mpr hacc), sampled_settings, hstrict, sampled_mem, sampled_pc,
      hreject]
    rfl
  exact step_of_refuse (boundary_of_undisturbed hund) hfetch

/-- Settles O5: a decoded word agrees with the canonical word, which has its row's bits; and those bits alone make the
decoder branch to that row. -/
theorem rowBitsSelectTheInstruction : Obligations.RowBitsSelectTheInstruction := by
  simp only [Obligations.RowBitsSelectTheInstruction, decodeWith_false]
  refine ⟨fun w i h => ?_, fun w i h => ⟨_, decodeLiteral_of_rowBits h, Instr.row_withFields w i⟩⟩
  obtain ⟨hrow, -⟩ := and_or_eq_iff.mp (decodeLiteral_iff.mp h)
  exact hrow.trans (encode_rowBits i)

/-- Settles O6: the cells of R120 and the cells the decoder accepts share no word and leave none out. -/
theorem illegalWordsAreTheEmptyCells : Obligations.IllegalWordsAreTheEmptyCells := by
  intro w
  rw [decodeWith_false]
  refine ⟨fun ⟨r, h⟩ => illegalWord_of_decodeLiteral_error h, fun hill => ?_⟩
  cases hdec : decodeLiteral w with
  | ok i => exact absurd hill (Bool.eq_false_iff.mp (not_illegalWord_of_decodeLiteral hdec))
  | error r => exact ⟨r, rfl⟩

/-- Settles O1, by running the decoder on the six words. -/
theorem specWordsDecode : Obligations.SpecWordsDecode := by
  refine ⟨?add, ?bne, ?jal, ?lw, ?mtc0, ?eret⟩
  all_goals decide

end Sys2Proof.Proofs
end

section
/-! PROOFS. What every step keeps (60_exceptions.md, 10_state.md): first the ways a step can end, and what each part of
the state is changed by, then the statements. -/

namespace Sys2Proof.Machine

variable {s t : State} {i : Instr}

/-! ## The ways a step can end -/

/-- The four ways a step reaches its next state (R12). -/
inductive StepEffect (s t : State) : Prop where
  /-- RESET is active at the boundary. -/
  | reset (hreset : s.pinsNow.reset = true) (h : t = s.passBoundary.applyReset)
  /-- An interrupt is taken at the boundary. -/
  | interrupt (hreset : s.pinsNow.reset = false) (htaken : s.sampled.interruptTaken = true)
      (h : t = s.sampled.enterInterrupt)
  /-- Fetching or decoding raises an exception. -/
  | trap (hund : s.undisturbed = true) (e : Exc) (hfetch : s.sampled.fetch = .trap e) (h : t = s.sampled.raise e)
  /-- The instruction at pc runs. -/
  | instr (hund : s.undisturbed = true) (i : Instr) (hfetch : s.sampled.fetch = .instr i)
      (h : exec i s.sampled = .next t)

theorem step_effect (h : step s = .next t) : StepEffect s t := by
  rcases step_cases h with hended | ⟨u, e, hruns, hfetch, ht⟩ | ⟨u, i, hruns, hfetch, hexec⟩
  · rcases boundary_ended.mp hended with ⟨hreset, ht⟩ | ⟨hreset, htaken, ht⟩
    · exact .reset hreset ht
    · exact .interrupt hreset htaken ht
  · obtain ⟨hund, rfl⟩ := undisturbed_of_boundary hruns
    exact .trap hund e hfetch ht
  · obtain ⟨hund, rfl⟩ := undisturbed_of_boundary hruns
    exact .instr hund i hfetch hexec

/-! ## The invariant -/

theorem inv_iff : s.inv = true ↔ s.mem.wf = true ∧ xcodeInUse s.cr.xcode = true := by
  unfold State.inv
  rw [Bool.and_eq_true]

/-- The code of every cause is one R301 gives. -/
theorem xcodeInUse_code (c : Cause) : xcodeInUse c.code = true := by
  cases c <;> rfl

/-- Trap entry keeps memory and writes the code of a cause. -/
theorem inv_enterGiet (c : Cause) (epc : Word) (bad : Option Word) (h : s.inv = true) :
    (s.enterGiet c epc bad).inv = true := by
  obtain ⟨hmem, -⟩ := inv_iff.mp h
  exact inv_iff.mpr ⟨hmem, xcodeInUse_code c⟩

theorem inv_of_shape (hshape : ExecShape s t) (h : s.inv = true) : t.inv = true := by
  obtain ⟨hmem, hxcode⟩ := inv_iff.mp h
  cases hshape with
  | plain | system => exact h
  | trap c epc bad => exact inv_enterGiet c epc bad h
  | store a w m permitted outside keepsForm => exact inv_iff.mpr ⟨keepsForm hmem, hxcode⟩

/-- Every step keeps the invariant. -/
theorem inv_step (h : s.inv = true) (hstep : step s = .next t) : t.inv = true := by
  have hsampled : s.sampled.inv = true := h
  cases step_effect hstep with
  | reset _ ht => exact ht ▸ h
  | interrupt _ _ ht => exact ht ▸ inv_enterGiet .int s.sampled.pc none hsampled
  | trap _ e _ ht => exact ht ▸ inv_enterGiet e.cause s.sampled.pc e.badAddr hsampled
  | instr _ i _ hexec => exact inv_of_shape (exec_shape hexec) hsampled

/-! ## What is hardwired -/

/-- PROCID, the settings and the accesses that get BERR are the same in both states (R7, R39). -/
def HardwiredKept (s t : State) : Prop := t.procid = s.procid ∧ t.settings = s.settings ∧ t.berr = s.berr

theorem hardwiredKept_of_shape (hshape : ExecShape s t) : HardwiredKept s t := by
  cases hshape <;> exact ⟨rfl, rfl, rfl⟩

theorem hardwiredKept_step (hstep : step s = .next t) : HardwiredKept s t := by
  cases step_effect hstep with
  | reset _ ht => exact ht ▸ ⟨rfl, rfl, rfl⟩
  | interrupt _ _ ht => exact ht ▸ ⟨rfl, rfl, rfl⟩
  | trap _ e _ ht => exact ht ▸ ⟨rfl, rfl, rfl⟩
  | instr _ i _ hexec => exact hardwiredKept_of_shape (s := s.sampled) (exec_shape hexec)

theorem hardwiredKept_reaches (h : Reaches s t) : HardwiredKept s t := by
  induction h with
  | refl => exact ⟨rfl, rfl, rfl⟩
  | next _ hstep ih =>
    obtain ⟨hprocid, hsettings, hberr⟩ := hardwiredKept_step hstep
    obtain ⟨hprocid', hsettings', hberr'⟩ := ih
    exact ⟨hprocid.trans hprocid', hsettings.trans hsettings', hberr.trans hberr'⟩

/-! ## The system segment in user mode -/

/-- In user mode every byte of a permitted access lies outside the system segment: the access is aligned, and the
segment begins at a multiple of every width (R67, R69, R70). -/
theorem covers_user {a b : Word} {w : Width} {k : AccessKind} (huser : s.userMode = true)
    (hacc : AccessPermitted s a w k) (hcov : w.covers a b = true) : inSystemSegment b = false := by
  obtain ⟨⟨haligned, hsegment⟩, -⟩ := hacc
  have ha : a.toNat < 0x80000000 := by
    by_contra hge
    rw [hsegment (Nat.not_lt.mp hge)] at huser
    cases huser
  have hb : b.toNat < 0x80000000 := by
    unfold Width.covers at hcov
    rw [decide_eq_true_iff, BitVec.toNat_sub] at hcov
    have hblt := b.isLt
    cases w <;> simp only [Width.bytes] at haligned hcov <;> omega
  exact Bool.eq_false_iff.mpr fun hsys => Nat.not_lt.mpr ((inSystemSegment_iff b).mp hsys) hb

/-- In user mode an instruction keeps every byte of the system segment: only a permitted store writes memory. -/
theorem byteAt_of_shape {a : Word} (huser : s.userMode = true) (ha : inSystemSegment a = true)
    (hshape : ExecShape s t) : t.mem.byteAt a = s.mem.byteAt a := by
  cases hshape with
  | plain | trap | system => rfl
  | store b w m permitted outside _ =>
    refine outside a (Bool.eq_false_iff.mpr fun hcov => ?_)
    rw [covers_user huser (accessExc_none_iff.mp permitted) hcov] at ha
    cases ha

theorem byteAt_step_user {a : Word} (huser : s.userMode = true) (ha : inSystemSegment a = true)
    (hstep : step s = .next t) : t.mem.byteAt a = s.mem.byteAt a := by
  cases step_effect hstep with
  | reset _ ht => exact ht ▸ rfl
  | interrupt _ _ ht => exact ht ▸ rfl
  | trap _ e _ ht => exact ht ▸ rfl
  | instr _ i _ hexec => exact byteAt_of_shape (s := s.sampled) huser ha (exec_shape hexec)

/-! ## The mode -/

theorem privileged_false_of_user (huser : s.userMode = true) : s.privileged = false := by
  simpa [userMode_eq] using huser

theorem userMode_false_of_privileged (h : s.privileged = true) : s.userMode = false := by
  rw [userMode_eq, h]
  rfl

theorem not_user_of_privileged (hpriv : s.privileged = true) : s.userMode ≠ true :=
  Bool.eq_false_iff.mp (userMode_false_of_privileged hpriv)

/-- Trap entry never leads to user mode (R310). -/
theorem not_user_of_trap {c : Cause} {epc : Word} {bad : Option Word} (h : t = s.enterGiet c epc bad) :
    t.userMode ≠ true :=
  h ▸ not_user_of_privileged (State.enterGiet_privileged ..)

/-- RESET never leads to user mode (R360). -/
theorem not_user_of_reset (h : t = s.applyReset) : t.userMode ≠ true :=
  h ▸ not_user_of_privileged (State.applyReset_privileged _)

/-- The mode is read from SR alone (R330). -/
theorem userMode_congr (h : t.sr = s.sr) : t.userMode = s.userMode := by
  unfold State.userMode
  rw [h]

theorem userMode_iff : s.userMode = true ↔ s.sr.um = true ∧ s.sr.exl = false ∧ s.sr.erl = false := by
  simp [State.userMode, and_assoc]

/-- What ends user mode: trap entry, which keeps the rest of SR, or RESET (R333). -/
theorem leaves_user (huser : s.userMode = true) (hpriv : t.userMode = false) (hstep : step s = .next t) :
    (t.pc = 0x80000180#32 ∧ t.sr = { s.sr with exl := true } ∧ (t.epc = s.pc ∨ t.epc = s.pc + 4#32)) ∨
      (s.pinsNow.reset = true ∧ t.pc = 0xBFC00000#32 ∧ t.sr.toWord = 0x00000004#32) := by
  cases step_effect hstep with
  | reset hreset ht => exact .inr ⟨hreset, ht ▸ rfl, ht ▸ StatusReg.afterReset_toWord⟩
  | interrupt _ _ ht => exact .inl ⟨ht ▸ rfl, ht ▸ rfl, .inl (ht ▸ rfl)⟩
  | trap _ e _ ht => exact .inl ⟨ht ▸ rfl, ht ▸ rfl, .inl (ht ▸ rfl)⟩
  | instr _ i _ hexec =>
    cases cp0_effect hexec with
    | kept hkept =>
      rw [userMode_congr (s := s) hkept.1, huser] at hpriv
      cases hpriv
    | raised e ht => exact .inl ⟨ht ▸ rfl, ht ▸ rfl, .inl (ht ▸ rfl)⟩
    | called c ht => exact .inl ⟨ht ▸ rfl, ht ▸ rfl, .inr (ht ▸ rfl)⟩
    | read hp | written hp | returned hp => exact absurd huser (not_user_of_privileged (s := s.sampled) hp)

/-- What begins user mode: ERET with UM = 1 and ERL = 0, or an MTC0 that writes such an SR (R333). -/
theorem enters_user (hpriv : s.userMode = false) (huser : t.userMode = true) (hstep : step s = .next t) :
    (s.sampled.fetch = .instr .eret ∧ s.sr.um = true ∧ s.sr.erl = false ∧ t.pc = s.epc) ∨
      ∃ rt, s.sampled.fetch = .instr (.mtc0 rt 12#5) ∧ (s.reg rt).getLsbD 4 = true ∧
        (s.reg rt).getLsbD 1 = false ∧ (s.reg rt).getLsbD 2 = false := by
  have hsame (hsr : t.sr = s.sr) : False := by
    rw [userMode_congr hsr, hpriv] at huser
    cases huser
  cases step_effect hstep with
  | reset _ ht => exact absurd huser (not_user_of_reset ht)
  | interrupt _ _ ht => exact absurd huser (not_user_of_trap ht)
  | trap _ e _ ht => exact absurd huser (not_user_of_trap ht)
  | instr _ i hfetch hexec =>
    obtain ⟨hum, hexl, herl⟩ := userMode_iff.mp huser
    cases cp0_effect hexec with
    | kept hkept => exact (hsame hkept.1).elim
    | raised e ht => exact absurd huser (not_user_of_trap ht)
    | called c ht => exact absurd huser (not_user_of_trap ht)
    | read _ h => exact (hsame h.1).elim
    | written _ rt rd hi hwritten =>
      subst hi
      rcases hwritten with ⟨-, rfl⟩ | ⟨rfl, rfl⟩ | ⟨-, rfl⟩ | ⟨-, rfl⟩ | rfl
      case inr.inl => exact .inr ⟨rt, hfetch, hum, hexl, herl⟩
      all_goals exact (hsame rfl).elim
    | returned _ hi ht =>
      subst hi ht
      exact .inl ⟨hfetch, hum, herl, rfl⟩

end Sys2Proof.Machine

/-! ## The statements -/

namespace Sys2Proof.Proofs

open Sys2Proof.Machine

/-- Settles O50: through the four ways a step can end and the four shapes of what an instruction does. -/
theorem stepKeepsTheInvariant : Obligations.StepKeepsTheInvariant := fun _ _ => inv_step

/-- Settles O49: the empty list is canonical, and XCODE 0 is a value in use. -/
theorem resetHasTheInvariant : Obligations.ResetHasTheInvariant :=
  ⟨by decide, fun _ hmem => inv_iff.mpr ⟨hmem, rfl⟩⟩

/-- Settles O52, by induction on the run. -/
theorem hardwiredStaysFixed : Obligations.HardwiredStaysFixed := fun _ _ => hardwiredKept_reaches

/-- Settles O58: only a permitted store writes memory, and in user mode it covers no byte of the segment. -/
theorem userModeKeepsTheSystemSegment : Obligations.UserModeKeepsTheSystemSegment :=
  fun _ _ a huser hstep ha => byteAt_step_user huser ((inSystemSegment_iff a).mpr ha) hstep

/-- Settles O57: SR is followed through the ways a step can end and what an instruction can do to the CP0
registers. -/
theorem modeChanges : Obligations.ModeChanges :=
  fun _ _ hstep => ⟨fun hs ht => leaves_user hs ht hstep, fun hs ht => enters_user hs ht hstep⟩

end Sys2Proof.Proofs
end

section
/-! PROOFS. What a user program cannot learn (60_exceptions.md, 20_memory.md): two states that differ in memory only,
and agree on the user segment, take the same step. -/

namespace Sys2Proof.Machine

variable {s t : State} {m : Memory}

/-- Two memories agree on every byte outside the system segment (R69). -/
def UserBytesAgree (m m' : Memory) : Prop := ∀ a : Word, inSystemSegment a = false → m.byteAt a = m'.byteAt a

/-- The state with another memory. -/
def State.withMem (s : State) (m : Memory) : State := { s with mem := m }

/-- Two states are the same to a user exactly when they differ in memory only, and there in the system segment
only. -/
theorem sameToUser_iff {s' : State} : SameToUser s s' ↔ ∃ m, s' = s.withMem m ∧ UserBytesAgree s.mem m := by
  constructor
  · rintro ⟨hgpr, hpc, hhi, hlo, hsr, hcr, hepc, hbar, hprocid, hcount, hsettings, hberr, hpins, htick, hmem⟩
    refine ⟨s'.mem, ?_, hmem⟩
    cases s
    cases s'
    simp_all [State.withMem]
  · rintro ⟨m, rfl, hagree⟩
    exact ⟨rfl, rfl, rfl, rfl, rfl, rfl, rfl, rfl, rfl, rfl, rfl, rfl, rfl, rfl, hagree⟩

/-! ## Accesses and fetching -/

/-- The bytes of a permitted access in user mode are the same in both memories. -/
theorem byteAt_agree {a b : Word} {w : Width} {k : AccessKind} (huser : s.userMode = true)
    (hagree : UserBytesAgree s.mem m) (hacc : AccessPermitted s a w k) (hcov : w.covers a b = true) :
    s.mem.byteAt b = m.byteAt b :=
  hagree b (covers_user huser hacc hcov)

theorem covers_self (w : Width) (a : Word) : w.covers a a = true := by
  cases w <;> simp [Width.covers, Width.bytes]

theorem covers_add {w : Width} (a : Word) {d : Word} (hd : d.toNat < w.bytes) : w.covers a (a + d) = true := by
  simpa [Width.covers] using hd

theorem halfAt_agree {a : Word} {k : AccessKind} (huser : s.userMode = true) (hagree : UserBytesAgree s.mem m)
    (hacc : AccessPermitted s a .half k) : s.mem.halfAt a = m.halfAt a := by
  have hbyte {b : Word} := byteAt_agree (b := b) huser hagree hacc
  unfold Memory.halfAt
  rw [hbyte (covers_self .half a), hbyte (covers_add a (d := 1#32) (by decide))]

theorem wordAt_agree {a : Word} {k : AccessKind} (huser : s.userMode = true) (hagree : UserBytesAgree s.mem m)
    (hacc : AccessPermitted s a .word k) : s.mem.wordAt a = m.wordAt a := by
  have hbyte {b : Word} := byteAt_agree (b := b) huser hagree hacc
  unfold Memory.wordAt
  rw [hbyte (covers_self .word a), hbyte (covers_add a (d := 1#32) (by decide)),
    hbyte (covers_add a (d := 2#32) (by decide)), hbyte (covers_add a (d := 3#32) (by decide))]

/-- Whether an access raises an exception does not depend on memory. -/
@[simp] theorem accessExc_withMem (s : State) (m : Memory) (a : Word) (w : Width) (k : AccessKind) :
    (s.withMem m).accessExc a w k = s.accessExc a w k := rfl

theorem fetch_withMem (huser : s.userMode = true) (hagree : UserBytesAgree s.mem m) :
    (s.withMem m).fetch = s.fetch := by
  rw [fetch_eq, fetch_eq, show (s.withMem m).pc = s.pc from rfl, accessExc_withMem]
  cases hacc : s.accessExc s.pc .word .fetch with
  | some e => rfl
  | none =>
    have hword := wordAt_agree huser hagree (accessExc_none_iff.mp hacc)
    exact congrArg (fun w => Fetched.ofDecode (decodeWith s.settings.decodeStrict w)) hword.symm

/-! ## Stores -/

theorem UserBytesAgree.setByte {m m' : Memory} (h : UserBytesAgree m m') (a : Word) (b : Byte) :
    UserBytesAgree (m.setByte a b) (m'.setByte a b) := by
  intro c hc
  rw [Memory.byteAt_setByte, Memory.byteAt_setByte, h c hc]

theorem UserBytesAgree.setHalf {m m' : Memory} (h : UserBytesAgree m m') (a : Word) (v : Half) :
    UserBytesAgree (m.setHalf a v) (m'.setHalf a v) :=
  (h.setByte _ _).setByte _ _

theorem UserBytesAgree.setWord {m m' : Memory} (h : UserBytesAgree m m') (a : Word) (v : Word) :
    UserBytesAgree (m.setWord a v) (m'.setWord a v) :=
  ((((h.setByte _ _).setByte _ _).setByte _ _).setByte _ _)

/-! ## Instructions -/

/-- Two answers that are next states are the same to a user. -/
def SameAnswers (r r' : Result) : Prop := ∀ t t', r = .next t → r' = .next t' → SameToUser t t'

/-- The same state with one or the other memory. -/
theorem sameAnswers_withMem {u : State} (hagree : UserBytesAgree u.mem m) :
    SameAnswers (.next u) (.next (u.withMem m)) := by
  intro t t' ht ht'
  cases ht
  cases ht'
  exact sameToUser_iff.mpr ⟨m, rfl, hagree⟩

theorem sameAnswers_writeUnlessOverflow (hagree : UserBytesAgree s.mem m) (rd : RegNum) (o : Bool) (v : Word) :
    SameAnswers (s.writeUnlessOverflow rd o v) ((s.withMem m).writeUnlessOverflow rd o v) := by
  cases o
  · exact sameAnswers_withMem (u := (s.setReg rd v).advance) hagree
  · exact sameAnswers_withMem (u := s.raise .ovf) hagree

/-- In user mode a privileged instruction raises CPU, whatever its effect would be (R308). -/
theorem sameAnswers_ifPrivileged (huser : s.userMode = true) (hagree : UserBytesAgree s.mem m)
    (effect effect' : Result) : SameAnswers (s.ifPrivileged effect) ((s.withMem m).ifPrivileged effect') := by
  have hpriv := privileged_false_of_user huser
  have hpriv' : (s.withMem m).privileged = false := hpriv
  rw [ifPrivileged_next.mpr (.inr ⟨hpriv, rfl⟩), ifPrivileged_next.mpr (.inr ⟨hpriv', rfl⟩)]
  exact sameAnswers_withMem (u := s.raise .cpu) hagree

/-- A load writes the same value, where it is permitted. -/
theorem sameAnswers_loadInto (hagree : UserBytesAgree s.mem m) {rt : RegNum} {a v v' : Word} {w : Width}
    (hv : AccessPermitted s a w .load → v = v') :
    SameAnswers (s.loadInto rt a w v) ((s.withMem m).loadInto rt a w v') := by
  unfold State.loadInto
  rw [accessExc_withMem]
  cases hacc : s.accessExc a w .load with
  | some e => exact sameAnswers_withMem (u := s.raise e) hagree
  | none =>
    rw [hv (accessExc_none_iff.mp hacc)]
    exact sameAnswers_withMem (u := (s.setReg rt v').advance) hagree

/-- A store of the same bytes leaves memories that agree. -/
theorem sameAnswers_storeInto (hagree : UserBytesAgree s.mem m) {a : Word} {w : Width} {m₁ m₂ : Memory}
    (hstored : UserBytesAgree m₁ m₂) : SameAnswers (s.storeInto a w m₁) ((s.withMem m).storeInto a w m₂) := by
  unfold State.storeInto
  rw [accessExc_withMem]
  cases s.accessExc a w .store with
  | some e => exact sameAnswers_withMem (u := s.raise e) hagree
  | none => exact sameAnswers_withMem (u := ({ s with mem := m₁ } : State).advance) hstored

/-- An instruction in user mode answers the same to a user with one or the other memory. -/
theorem sameAnswers_exec (huser : s.userMode = true) (hagree : UserBytesAgree s.mem m) (i : Instr) :
    SameAnswers (exec i s) (exec i (s.withMem m)) := by
  cases i
  case mfc0 | mtc0 | eret => exact sameAnswers_ifPrivileged huser hagree _ _
  case add | sub | addi => exact sameAnswers_writeUnlessOverflow hagree _ _ _
  case lb | lbu =>
    exact sameAnswers_loadInto hagree fun hacc =>
      congrArg _ (byteAt_agree huser hagree hacc (covers_self .byte _))
  case lh | lhu => exact sameAnswers_loadInto hagree fun hacc => congrArg _ (halfAt_agree huser hagree hacc)
  case lw => exact sameAnswers_loadInto hagree fun hacc => wordAt_agree huser hagree hacc
  case sb => exact sameAnswers_storeInto hagree (hagree.setByte _ _)
  case sh => exact sameAnswers_storeInto hagree (hagree.setHalf _ _)
  case sw => exact sameAnswers_storeInto hagree (hagree.setWord _ _)
  all_goals
    intro t t' ht ht'
    cases ht
    cases ht'
    exact sameToUser_iff.mpr ⟨m, rfl, hagree⟩

/-! ## Steps -/

/-- A step in user mode is the same to a user with one or the other memory: the boundary does not look at memory, the
fetch looks at the user segment only, and the instruction answers the same. -/
theorem sameAnswers_step (huser : s.userMode = true) (hagree : UserBytesAgree s.mem m) :
    SameAnswers (step s) (step (s.withMem m)) := by
  intro t t' ht ht'
  have hfetch : (s.withMem m).sampled.fetch = s.sampled.fetch := fetch_withMem (s := s.sampled) huser hagree
  cases step_effect ht with
  | reset hreset h =>
    rw [step_of_reset (s := s.withMem m) hreset] at ht'
    exact sameAnswers_withMem (u := s.passBoundary.applyReset) hagree t t' (h ▸ rfl) ht'
  | interrupt hreset htaken h =>
    rw [step_of_ended (boundary_of_interruptTaken (s := s.withMem m) hreset htaken)] at ht'
    exact sameAnswers_withMem (u := s.sampled.enterInterrupt) hagree t t' (h ▸ rfl) ht'
  | trap hund e htrap h =>
    rw [step_of_trap (boundary_of_undisturbed (s := s.withMem m) hund) (hfetch.trans htrap)] at ht'
    exact sameAnswers_withMem (u := s.sampled.raise e) hagree t t' (h ▸ rfl) ht'
  | instr hund i hinstr h =>
    rw [step_of_instr (boundary_of_undisturbed (s := s.withMem m) hund) (hfetch.trans hinstr)] at ht'
    exact sameAnswers_exec (s := s.sampled) huser hagree i t t' h ht'

end Sys2Proof.Machine

/-! ## The statement -/

namespace Sys2Proof.Proofs

open Sys2Proof.Machine

/-- Settles O60: the two states are one state with two memories, and the step is taken with one and with the other. -/
theorem userModeLearnsNothingOfTheSystemSegment : Obligations.UserModeLearnsNothingOfTheSystemSegment := by
  intro s s' t t' huser hsame ht ht'
  obtain ⟨m, rfl, hagree⟩ := sameToUser_iff.mp hsame
  exact sameAnswers_step huser hagree t t' ht ht'

end Sys2Proof.Proofs
end

section
/-! PROOFS. What an instruction writes (10_state.md, 42_load_store.md, 43_system.md), and how runs go on: HI, LO and
memory, the CP0 registers, the completion of every instruction, and the end of a run. -/

namespace Sys2Proof.Machine

variable {s t : State} {i : Instr}

/-! ## Memory, HI and LO -/

/-- `i` is the store of width `w` with these operands. -/
def IsStore (i : Instr) (rs rt : RegNum) (imd16 : BitVec 16) (w : Width) : Prop :=
  (i = .sb rs rt imd16 ∧ w = .byte) ∨ (i = .sh rs rt imd16 ∧ w = .half) ∨ (i = .sw rs rt imd16 ∧ w = .word)

/-- What an instruction can do to memory, HI and LO. -/
inductive DataEffect (i : Instr) (s t : State) : Prop where
  /-- It keeps memory, HI and LO. -/
  | kept (hmem : t.mem = s.mem) (hhi : t.hi = s.hi) (hlo : t.lo = s.lo)
  /-- It is a permitted store. -/
  | stored (rs rt : RegNum) (imd16 : BitVec 16) (w : Width) (hi : IsStore i rs rt imd16 w)
      (permitted : AccessPermitted s (s.effAddr rs imd16) w .store)
      (outside : MemKeptOutside s t (s.effAddr rs imd16) w) (hhi : t.hi = s.hi) (hlo : t.lo = s.lo)
  /-- It is a multiply or a divide. -/
  | computed (rs rt : RegNum) (hi : i = .mult rs rt ∨ i = .multu rs rt ∨ i = .div rs rt ∨ i = .divu rs rt)
      (hmem : t.mem = s.mem)
  /-- It is MTHI. -/
  | wroteHi (rs : RegNum) (hi : i = .mthi rs) (hmem : t.mem = s.mem) (hlo : t.lo = s.lo)
  /-- It is MTLO. -/
  | wroteLo (rs : RegNum) (hi : i = .mtlo rs) (hmem : t.mem = s.mem) (hhi : t.hi = s.hi)

theorem dataEffect_storeInto {rs rt : RegNum} {imd16 : BitVec 16} {w : Width} {m : Memory}
    (hi : IsStore i rs rt imd16 w)
    (outside : ∀ b, w.covers (s.effAddr rs imd16) b = false → m.byteAt b = s.mem.byteAt b)
    (h : s.storeInto (s.effAddr rs imd16) w m = .next t) : DataEffect i s t := by
  rcases storeInto_next.mp h with ⟨e, -, rfl⟩ | ⟨hacc, rfl⟩
  · exact .kept rfl rfl rfl
  · exact .stored rs rt imd16 w hi (accessExc_none_iff.mp hacc) outside rfl rfl

theorem dataEffect_mfc0 {rt rd : RegNum} (h : execMfc0 rt rd s = .next t) : DataEffect i s t := by
  rcases ifPrivileged_next.mp h with ⟨-, h⟩ | ⟨-, rfl⟩
  · rcases readCp0_next h with rfl | ⟨v, c, rfl, -⟩ <;> exact .kept rfl rfl rfl
  · exact .kept rfl rfl rfl

theorem dataEffect_mtc0 {rt rd : RegNum} (h : execMtc0 rt rd s = .next t) : DataEffect i s t := by
  rcases ifPrivileged_next.mp h with ⟨-, h⟩ | ⟨-, rfl⟩
  · rcases writeCp0_next h with rfl | ⟨-, rfl⟩ | ⟨-, rfl⟩ | ⟨-, rfl⟩ | ⟨-, rfl⟩ | rfl <;> exact .kept rfl rfl rfl
  · exact .kept rfl rfl rfl

theorem dataEffect_eret (h : execEret s = .next t) : DataEffect i s t := by
  rcases ifPrivileged_next.mp h with ⟨-, h⟩ | ⟨-, rfl⟩
  · cases h
    exact .kept rfl rfl rfl
  · exact .kept rfl rfl rfl

theorem data_effect (h : exec i s = .next t) : DataEffect i s t := by
  cases i
  case sb => exact dataEffect_storeInto (.inl ⟨rfl, rfl⟩) (fun _ => Memory.setByte_outside) h
  case sh => exact dataEffect_storeInto (.inr (.inl ⟨rfl, rfl⟩)) (fun _ => Memory.setHalf_outside) h
  case sw => exact dataEffect_storeInto (.inr (.inr ⟨rfl, rfl⟩)) (fun _ => Memory.setWord_outside) h
  case mfc0 => exact dataEffect_mfc0 h
  case mtc0 => exact dataEffect_mtc0 h
  case eret => exact dataEffect_eret h
  case lb | lbu | lh | lhu | lw =>
    rcases loadInto_next.mp h with ⟨e, -, rfl⟩ | ⟨-, rfl⟩ <;> exact .kept rfl rfl rfl
  case add | sub | addi =>
    rcases writeUnlessOverflow_next.mp h with ⟨-, rfl⟩ | ⟨-, rfl⟩ <;> exact .kept rfl rfl rfl
  case mult rs rt => exact .computed rs rt (.inl rfl) (writeHiLo_next.mp h ▸ rfl)
  case multu rs rt => exact .computed rs rt (.inr (.inl rfl)) (writeHiLo_next.mp h ▸ rfl)
  case div rs rt => exact .computed rs rt (.inr (.inr (.inl rfl))) (writeHiLo_next.mp h ▸ rfl)
  case divu rs rt => exact .computed rs rt (.inr (.inr (.inr rfl))) (writeHiLo_next.mp h ▸ rfl)
  case mthi rs => exact .wroteHi rs rfl (writeHiLo_next.mp h ▸ rfl) (writeHiLo_next.mp h ▸ rfl)
  case mtlo rs => exact .wroteLo rs rfl (writeHiLo_next.mp h ▸ rfl) (writeHiLo_next.mp h ▸ rfl)
  all_goals
    cases h
    exact .kept rfl rfl rfl

/-! ## The CP0 registers -/

/-- Only ADEL and ADES carry an address, and their codes are 4 and 5 (R301, R310). -/
theorem badAddr_none_or_addressError (e : Exc) :
    e.badAddr = none ∨ e.cause.code = 0b0100#4 ∨ e.cause.code = 0b0101#4 := by
  cases e
  case adel => exact .inr (.inl rfl)
  case ades => exact .inr (.inr rfl)
  all_goals exact .inl rfl

/-- BAR after an exception: unchanged, or the exception is ADEL or ADES (R38). -/
theorem raise_bar (s : State) (e : Exc) :
    (s.raise e).bar = s.bar ∨ (s.raise e).cr.xcode = 0b0100#4 ∨ (s.raise e).cr.xcode = 0b0101#4 := by
  rcases badAddr_none_or_addressError e with hnone | hcode
  · left
    rw [State.raise_eq, State.enterGiet_bar, hnone]
    rfl
  · exact .inr hcode

theorem bar_step (hstep : step s = .next t) (hbar : t.bar ≠ s.bar) :
    (t.pc = 0x80000180#32 ∧ t.sr.exl = true ∧ t.epc = s.pc ∧
        (t.cr.xcode = 0b0100#4 ∨ t.cr.xcode = 0b0101#4)) ∨
      (s.userMode = false ∧ ∃ rt, s.sampled.fetch = .instr (.mtc0 rt 8#5) ∧ t.bar = s.reg rt) := by
  have raised (e : Exc) (ht : t = s.sampled.raise e) :
      t.pc = 0x80000180#32 ∧ t.sr.exl = true ∧ t.epc = s.pc ∧
        (t.cr.xcode = 0b0100#4 ∨ t.cr.xcode = 0b0101#4) := by
    subst ht
    exact ⟨rfl, rfl, rfl, (raise_bar s.sampled e).resolve_left hbar⟩
  cases step_effect hstep with
  | reset _ ht => exact absurd (ht ▸ rfl) hbar
  | interrupt _ _ ht => exact absurd (ht ▸ rfl) hbar
  | trap _ e _ ht => exact .inl (raised e ht)
  | instr _ i hfetch hexec =>
    cases cp0_effect hexec with
    | kept h =>
      obtain ⟨-, -, -, hkept, -⟩ := h
      exact absurd hkept hbar
    | raised e ht => exact .inl (raised e ht)
    | called c ht => exact absurd (ht ▸ rfl) hbar
    | read _ h =>
      obtain ⟨-, -, -, hkept⟩ := h
      exact absurd hkept hbar
    | returned _ _ ht => exact absurd (ht ▸ rfl) hbar
    | written hpriv rt rd hi hwritten =>
      subst hi
      rcases hwritten with ⟨rfl, rfl⟩ | ⟨-, rfl⟩ | ⟨-, rfl⟩ | ⟨-, rfl⟩ | rfl
      case inl => exact .inr ⟨userMode_false_of_privileged hpriv, rt, hfetch, rfl⟩
      all_goals exact absurd rfl hbar

/-- Only an MTC0 to CR changes the two requests (R323). -/
theorem swi_step (hstep : step s = .next t) (hswi : t.cr.swi ≠ s.cr.swi) :
    s.userMode = false ∧ s.undisturbed = true ∧
      ∃ rt, s.sampled.fetch = .instr (.mtc0 rt 13#5) ∧ t.cr.swi = (s.reg rt).extractLsb' 8 2 := by
  cases step_effect hstep with
  | reset _ ht => exact absurd (ht ▸ rfl) hswi
  | interrupt _ _ ht => exact absurd (ht ▸ rfl) hswi
  | trap _ e _ ht => exact absurd (ht ▸ rfl) hswi
  | instr hund i hfetch hexec =>
    cases cp0_effect hexec with
    | kept h =>
      obtain ⟨-, hkept, -⟩ := h
      exact absurd (congrArg CauseReg.swi hkept) hswi
    | raised e ht => exact absurd (ht ▸ rfl) hswi
    | called c ht => exact absurd (ht ▸ rfl) hswi
    | read _ h =>
      obtain ⟨-, hkept, -⟩ := h
      exact absurd (congrArg CauseReg.swi hkept) hswi
    | returned _ _ ht => exact absurd (ht ▸ rfl) hswi
    | written hpriv rt rd hi hwritten =>
      subst hi
      rcases hwritten with ⟨-, rfl⟩ | ⟨-, rfl⟩ | ⟨rfl, rfl⟩ | ⟨-, rfl⟩ | rfl
      case inr.inr.inl => exact ⟨userMode_false_of_privileged hpriv, hund, rt, hfetch, rfl⟩
      all_goals exact absurd rfl hswi

/-- A step from user mode to user mode is an instruction that keeps the CP0 registers: every other step leaves a
privileged state, or needs one (R332). -/
theorem cp0Kept_of_user_step (huser : s.userMode = true) (hstep : step s = .next t) (huser' : t.userMode = true) :
    Cp0Kept s.sampled t := by
  cases step_effect hstep with
  | reset _ ht => exact absurd huser' (not_user_of_reset ht)
  | interrupt _ _ ht => exact absurd huser' (not_user_of_trap ht)
  | trap _ e _ ht => exact absurd huser' (not_user_of_trap ht)
  | instr _ i _ hexec =>
    cases cp0_effect hexec with
    | kept h => exact h
    | raised e ht => exact absurd huser' (not_user_of_trap ht)
    | called c ht => exact absurd huser' (not_user_of_trap ht)
    | read hp | written hp | returned hp => exact absurd huser (not_user_of_privileged (s := s.sampled) hp)

/-! ## Completing -/

theorem ifPrivileged_completes {effect : Result} (h : s.privileged = true → ∃ t, effect = .next t) :
    ∃ t, s.ifPrivileged effect = .next t := by
  unfold State.ifPrivileged
  split
  · next hp => exact h hp
  · exact ⟨_, rfl⟩

theorem writeUnlessOverflow_completes (s : State) (rd : RegNum) (o : Bool) (v : Word) :
    ∃ t, s.writeUnlessOverflow rd o v = .next t := by
  cases o <;> exact ⟨_, rfl⟩

theorem loadInto_completes (s : State) (rt : RegNum) (a : Word) (w : Width) (v : Word) :
    ∃ t, s.loadInto rt a w v = .next t := by
  unfold State.loadInto
  split <;> exact ⟨_, rfl⟩

theorem storeInto_completes (s : State) (a : Word) (w : Width) (m : Memory) : ∃ t, s.storeInto a w m = .next t := by
  unfold State.storeInto
  split <;> exact ⟨_, rfl⟩

/-- Every instruction has a next state, but for a privileged MFC0 or MTC0 of an undefined number in a machine with
CP0_UNDEF = refuse (R41, D14). -/
theorem exec_completes (i : Instr) (s : State)
    (h : s.settings.cp0Undef = .refuse → s.privileged = true → i.wellFormed = true) : ∃ t, exec i s = .next t := by
  cases i
  case mfc0 => exact ifPrivileged_completes fun hp => readCp0_completes fun hr => h hr hp
  case mtc0 => exact ifPrivileged_completes fun hp => writeCp0_completes fun hr => h hr hp
  case eret => exact ifPrivileged_completes fun _ => ⟨_, rfl⟩
  case add | sub | addi => exact writeUnlessOverflow_completes ..
  case lb | lbu | lh | lhu | lw => exact loadInto_completes ..
  case sb | sh | sw => exact storeInto_completes ..
  all_goals exact ⟨_, rfl⟩

/-- Literal decoding leaves the processor an instruction or RI (R115, R307). -/
theorem ofDecode_literal (w : Word) :
    (∃ i, Fetched.ofDecode (decodeWith false w) = .instr i) ∨ Fetched.ofDecode (decodeWith false w) = .trap .ri := by
  rw [decodeWith_false]
  cases hdec : decodeLiteral w with
  | ok i => exact .inl ⟨i, rfl⟩
  | error r =>
    right
    rcases decodeLiteral_error hdec with rfl | ⟨-, rfl⟩ <;> rfl

/-- A machine that decodes literally refuses no fetch. -/
theorem fetch_literal (hstrict : s.settings.decodeStrict = false) :
    (∃ i, s.fetch = .instr i) ∨ ∃ e, s.fetch = .trap e := by
  rw [fetch_eq, hstrict]
  cases s.accessExc s.pc .word .fetch with
  | some e => exact .inr ⟨e, rfl⟩
  | none => exact (ofDecode_literal (s.mem.wordAt s.pc)).imp_right fun h => ⟨.ri, h⟩

theorem step_completes (hstrict : s.settings.decodeStrict = false) (hundef : s.settings.cp0Undef ≠ .refuse) :
    ∃ t, step s = .next t := by
  cases hb : s.boundary with
  | ended u => exact ⟨u, step_of_ended hb⟩
  | runs u =>
    obtain ⟨-, rfl⟩ := undisturbed_of_boundary hb
    rcases fetch_literal (s := s.sampled) hstrict with ⟨i, hi⟩ | ⟨e, he⟩
    · rw [step_of_instr hb hi]
      exact exec_completes i s.sampled fun hr => absurd hr hundef
    · exact ⟨_, step_of_trap hb he⟩

/-! ## Runs -/

variable {halt : State → Bool} {k n : Nat}

theorem notHaltedBefore_zero (halt : State → Bool) (s : State) : NotHaltedBefore halt 0 s :=
  fun _ _ hj => absurd hj (Nat.not_lt_zero _)

/-- `HALT` does not hold before `k + 1` steps when it does not hold now, nor before `k` steps of the next state. -/
theorem notHaltedBefore_succ :
    NotHaltedBefore halt (k + 1) s ↔ halt s = false ∧ ∀ u, step s = .next u → NotHaltedBefore halt k u := by
  constructor
  · intro h
    refine ⟨h 0 s (Nat.succ_pos k) rfl, fun u hs j v hj hv => ?_⟩
    exact h (j + 1) v (Nat.succ_lt_succ hj) ((stepTimes_next j hs).trans hv)
  · rintro ⟨hs, hnext⟩ j v hj hv
    cases j with
    | zero =>
      cases hv
      exact hs
    | succ j =>
      cases hu : step s with
      | next u =>
        rw [stepTimes_next j hu] at hv
        exact hnext u hu j v (Nat.lt_of_succ_lt_succ hj) hv
      | fault f => cases f
      | refused r =>
        rw [stepTimes_refused j hu] at hv
        cases hv

/-- `t` comes after `k` steps from `s` and is the first state in which `HALT` holds. -/
def HaltsAt (halt : State → Bool) (k : Nat) (s t : State) : Prop :=
  stepTimes k s = .next t ∧ halt t = true ∧ NotHaltedBefore halt k s

theorem haltsAt_zero : HaltsAt halt 0 s t ↔ t = s ∧ halt s = true := by
  constructor
  · rintro ⟨hst, ht, -⟩
    cases hst
    exact ⟨rfl, ht⟩
  · rintro ⟨rfl, ht⟩
    exact ⟨rfl, ht, notHaltedBefore_zero halt t⟩

theorem haltsAt_succ :
    HaltsAt halt (k + 1) s t ↔ halt s = false ∧ ∃ u, step s = .next u ∧ HaltsAt halt k u t := by
  unfold HaltsAt
  rw [notHaltedBefore_succ]
  cases hu : step s with
  | next u => simp [stepTimes_next k hu, and_left_comm]
  | fault f => cases f
  | refused r => simp [stepTimes_refused k hu]

/-- A run that halts does so in the first state in which `HALT` holds. -/
theorem runUntil_eq_halted_iff : runUntil halt n s = .halted t ↔ ∃ k, k ≤ n ∧ HaltsAt halt k s t := by
  induction n generalizing s with
  | zero =>
    cases hs : halt s with
    | true => simp [runUntil_halted 0 hs, haltsAt_zero, hs, eq_comm]
    | false => simp [runUntil_zero hs, haltsAt_zero, hs]
  | succ n ih =>
    have hsplit : (∃ k, k ≤ n + 1 ∧ HaltsAt halt k s t) ↔
        HaltsAt halt 0 s t ∨ ∃ k, k ≤ n ∧ HaltsAt halt (k + 1) s t := by
      simpa [Nat.lt_succ_iff] using Nat.exists_lt_succ_left (n := n + 1) (p := fun k => HaltsAt halt k s t)
    rw [hsplit, haltsAt_zero]
    simp only [haltsAt_succ]
    cases hs : halt s with
    | true => simp [runUntil_halted (n + 1) hs, eq_comm]
    | false =>
      cases hu : step s with
      | next u => simp [runUntil_next n hs hu, ih]
      | fault f => cases f
      | refused r => simp [runUntil_refused n hs hu]

/-- A run that goes on has taken all its steps, and `HALT` held in none of its states. -/
theorem runUntil_eq_going_iff :
    runUntil halt n s = .going t ↔ stepTimes n s = .next t ∧ NotHaltedBefore halt (n + 1) s := by
  induction n generalizing s with
  | zero =>
    rw [notHaltedBefore_succ]
    cases hs : halt s with
    | true => simp [runUntil_halted 0 hs]
    | false => simp [runUntil_zero hs, stepTimes, notHaltedBefore_zero]
  | succ n ih =>
    rw [notHaltedBefore_succ]
    cases hs : halt s with
    | true => simp [runUntil_halted (n + 1) hs]
    | false =>
      cases hu : step s with
      | next u => simp [runUntil_next n hs hu, stepTimes_next n hu, ih]
      | fault f => cases f
      | refused r => simp [runUntil_refused n hs hu, stepTimes_refused n hu]

end Sys2Proof.Machine

/-! ## The statements -/

namespace Sys2Proof.Proofs

open Sys2Proof.Machine

/-- Settles O54: of the effects an instruction can have on data only a store changes memory, and it keeps the bytes
outside its access. -/
theorem onlyStoresWriteMemory : Obligations.OnlyStoresWriteMemory := by
  intro i s t b hexec hchanged
  cases data_effect hexec with
  | kept hmem | computed _ _ _ hmem | wroteHi _ _ hmem | wroteLo _ _ hmem => exact absurd (hmem ▸ rfl) hchanged
  | stored rs rt imd16 w hi permitted outside =>
    exact ⟨rs, rt, imd16, w, hi, permitted, Bool.eq_true_of_not_eq_false fun hcov => hchanged (outside b hcov)⟩

/-- Settles O55: the effects that change HI or LO are those of the six instructions. -/
theorem onlySixInstructionsWriteHiLo : Obligations.OnlySixInstructionsWriteHiLo := by
  intro i s t hexec
  cases data_effect hexec with
  | kept _ hhi hlo | stored _ _ _ _ _ _ _ hhi hlo => exact ⟨absurd hhi, absurd hlo⟩
  | computed rs rt hi =>
    refine ⟨fun _ => ⟨rs, rt, ?_⟩, fun _ => ⟨rs, rt, ?_⟩⟩ <;> tauto
  | wroteHi rs hi _ hlo => exact ⟨fun _ => ⟨rs, rs, .inr (.inr (.inr (.inr hi)))⟩, absurd hlo⟩
  | wroteLo rs hi _ hhi => exact ⟨absurd hhi, fun _ => ⟨rs, rs, .inr (.inr (.inr (.inr hi)))⟩⟩

/-- Settles O56: of the exceptions only ADEL and ADES carry an address, and of the instructions only MTC0 writes
BAR. -/
theorem barWrittenOnlyByAddressErrors : Obligations.BarWrittenOnlyByAddressErrors := fun _ _ => bar_step

/-- Settles O59: the step is an instruction that keeps the CP0 registers of the sampled state. -/
theorem userModeKeepsTheCp0Registers : Obligations.UserModeKeepsTheCp0Registers := by
  intro s t huser hstep huser'
  obtain ⟨hsr, hcr, hepc, hbar, hcount⟩ := cp0Kept_of_user_step huser hstep huser'
  obtain ⟨hprocid, -, -⟩ := hardwiredKept_step hstep
  exact ⟨hsr, hcr, hepc, hbar, hprocid, hcount⟩

/-- Settles O13: the fetch of a literal decoder is refused nowhere, and only an undefined CP0 number refuses an
instruction. -/
theorem everyStepHasANextState : Obligations.EveryStepHasANextState := by
  refine ⟨fun s => step_completes, fun i s h => exec_completes i s fun hrefuse hpriv => ?_⟩
  exact h hrefuse (userMode_false_of_privileged hpriv)

/-- Settles O53, by induction on the steps a run has. -/
theorem runEndsAtTheFirstHaltingState : Obligations.RunEndsAtTheFirstHaltingState :=
  fun _ _ _ _ => ⟨runUntil_eq_halted_iff, runUntil_eq_going_iff⟩

end Sys2Proof.Proofs
end

section
/-! PROOFS. The CP0 registers and the boundary (10_state.md, 43_system.md, 60_exceptions.md, 70_reset_and_hazards.md):
first the bits of SR and CR, supervisor mode, and what a fetch leads to, then the statements. -/

namespace Sys2Proof.Machine

variable {s : State}

/-! ## The words of SR and CR -/

/-- The bits of SR (R31, R32). -/
theorem StatusReg.getLsbD_toWord (r : StatusReg) {k : Nat} (hk : k < 32) :
    r.toWord.getLsbD k =
      if 8 ≤ k ∧ k ≤ 15 then r.im.getLsbD (k - 8)
      else if k = 4 then r.um else if k = 2 then r.erl else if k = 1 then r.exl else if k = 0 then r.ie
      else false := by
  unfold StatusReg.toWord
  simp only [BitVec.getLsbD_append]
  interval_cases k <;> simp

/-- The bits of CR (R34, R35). -/
theorem CauseReg.getLsbD_toWord (r : CauseReg) {k : Nat} (hk : k < 32) :
    r.toWord.getLsbD k =
      if 10 ≤ k ∧ k ≤ 15 then r.irq.getLsbD (k - 10)
      else if 8 ≤ k ∧ k ≤ 9 then r.swi.getLsbD (k - 8)
      else if 2 ≤ k ∧ k ≤ 5 then r.xcode.getLsbD (k - 2)
      else false := by
  unfold CauseReg.toWord
  simp only [BitVec.getLsbD_append]
  interval_cases k <;> simp

theorem StatusReg.toWord_um (r : StatusReg) : r.toWord.getLsbD 4 = r.um := r.getLsbD_toWord (by decide)

theorem StatusReg.toWord_erl (r : StatusReg) : r.toWord.getLsbD 2 = r.erl := r.getLsbD_toWord (by decide)

theorem StatusReg.toWord_exl (r : StatusReg) : r.toWord.getLsbD 1 = r.exl := r.getLsbD_toWord (by decide)

/-! ## Supervisor mode -/

theorem privileged_of_supervisor (h : s.userMode = false) : s.privileged = true := by
  simpa [userMode_eq] using h

/-- In supervisor mode a privileged instruction has its effect (R260). -/
theorem ifPrivileged_of_supervisor (effect : Result) (h : s.userMode = false) : s.ifPrivileged effect = effect :=
  if_pos (privileged_of_supervisor h)

theorem exec_mfc0 (rt rd : RegNum) (h : s.userMode = false) : exec (.mfc0 rt rd) s = s.readCp0 rt rd :=
  ifPrivileged_of_supervisor _ h

theorem exec_mtc0 (rt rd : RegNum) (h : s.userMode = false) : exec (.mtc0 rt rd) s = s.writeCp0 rd (s.reg rt) :=
  ifPrivileged_of_supervisor _ h

theorem exec_eret (h : s.userMode = false) : exec .eret s = .next s.returnFromGiet :=
  ifPrivileged_of_supervisor _ h

/-- For a number the spec does not define, CP0_UNDEF decides what MFC0 does (R41). -/
theorem readCp0_undefined {rd : RegNum} (rt : RegNum) (h : definedCp0 rd = false) :
    s.readCp0 rt rd = s.readUndefinedCp0 s.settings.cp0Undef rt rd := by
  unfold State.readCp0
  split
  case h_7 => rfl
  all_goals cases h

/-- For a number the spec does not define, CP0_UNDEF decides what MTC0 does (R41). -/
theorem writeCp0_undefined {rd : RegNum} (v : Word) (h : definedCp0 rd = false) :
    s.writeCp0 rd v = s.writeUndefinedCp0 s.settings.cp0Undef rd := by
  unfold State.writeCp0
  split
  case h_7 => rfl
  all_goals cases h

/-! ## Fetching -/

/-- A permitted fetch of four bytes that decode gives their instruction. -/
theorem fetch_of_decode {i : Instr} (hacc : AccessPermitted s s.pc .word .fetch)
    (hdec : decode s.settings.decodeStrict (s.mem.wordBytes s.pc) = .ok (i, [])) : s.fetch = .instr i := by
  have hword := decode_wordBytes s.settings.decodeStrict s.mem s.pc
  rw [hdec] at hword
  rw [fetch_of_permitted hacc, ← hword]
  rfl

/-- A fetch that its checks stop raises their exception, whatever stands in memory. -/
theorem fetch_of_accessExc {e : Exc} (h : s.accessExc s.pc .word .fetch = some e) : s.fetch = .trap e := by
  rw [fetch_eq, h]

/-- Without RESET and interrupt, an exception of the fetch is taken in the sampled state. -/
theorem step_of_accessExc {e : Exc} (hund : s.undisturbed = true)
    (h : s.sampled.accessExc s.sampled.pc .word .fetch = some e) :
    CompletesWith (step s) (TrapsTo s.sampled e.cause.code s.pc e.badAddr) :=
  ⟨_, step_of_trap (boundary_of_undisturbed hund) (fetch_of_accessExc h), trapsTo_raise s.sampled e⟩

/-- A fetch from an illegal address raises ADEL with EPC and BAR that address (R302). -/
theorem step_of_illegal_pc (hund : s.undisturbed = true) (h : ¬ AddressLegal s s.pc .word) :
    CompletesWith (step s) (TrapsTo s.sampled 0b0100#4 s.pc (some s.pc)) :=
  step_of_accessExc hund (e := .adel s.pc) (accessExc_illegal (s := s.sampled) h)

/-- Interrupt entry, in the sampled state (R321). -/
theorem step_of_interrupt (hreset : s.pinsNow.reset = false) (htaken : s.sampled.interruptTaken = true) :
    step s = .next s.sampled.enterInterrupt :=
  step_of_ended (boundary_of_interruptTaken hreset htaken)

theorem trapsTo_enterInterrupt (s : State) : TrapsTo s 0b0000#4 s.pc none s.enterInterrupt :=
  trapsTo_enterGiet s .int s.pc none

end Sys2Proof.Machine

/-! ## The statements -/

namespace Sys2Proof.Proofs

open Sys2Proof.Machine

/-- Settles O43: the bits of a concatenation, place by place. -/
theorem statusAndCauseLayout : Obligations.StatusAndCauseLayout :=
  ⟨fun r _ => r.getLsbD_toWord, fun r _ => r.getLsbD_toWord⟩

/-- Settles O17: the three bits of the word are the three fields the formula reads. -/
theorem privilegedFormula : Obligations.PrivilegedFormula := by
  intro s
  rw [StatusReg.toWord_um, StatusReg.toWord_exl, StatusReg.toWord_erl, userMode_eq]
  simp [State.privileged, or_assoc]

/-- Settles O7: an undisturbed boundary leaves the sampled state, in which the fetch gives the instruction. -/
theorem stepRunsTheDecodedInstruction : Obligations.StepRunsTheDecodedInstruction := by
  refine ⟨fun s i hund hacc hdec => ?_, fun s => rfl⟩
  have hfetch : s.sampled.fetch = .instr i := fetch_of_decode (accessPermitted_sampled.mpr hacc) hdec
  exact step_of_instr (boundary_of_undisturbed hund) hfetch

/-- Settles O10: the boundary ends in trap entry from the sampled state. -/
theorem interruptEntry : Obligations.InterruptEntry :=
  fun s hreset htaken => ⟨_, step_of_interrupt hreset htaken, trapsTo_enterInterrupt s.sampled, rfl⟩

/-- Settles O11: the address check comes first, and BERR is looked at for a legal address. -/
theorem fetchErrorsTrap : Obligations.FetchErrorsTrap := by
  refine ⟨fun s => step_of_illegal_pc, fun s hund hlegal hberr => ?_⟩
  exact step_of_accessExc hund (e := .ibe) (accessExc_busError (s := s.sampled) hlegal hberr)

/-- Settles O18: in supervisor mode ERET is the return from the GIET. -/
theorem eretReturns : Obligations.EretReturns := fun _ => exec_eret

/-- Settles O44: each of the five numbers selects one `writeNext`. -/
theorem mfc0Reads : Obligations.Mfc0Reads := by
  intro s rt hsup
  simp only [exec_mfc0 _ _ hsup]
  exact ⟨writeNext_completes .., writeNext_completes .., writeNext_completes .., writeNext_completes ..,
    writeNext_completes ..⟩

/-- Settles O45: each number selects one update of the state. -/
theorem mtc0Writes : Obligations.Mtc0Writes := by
  intro s rt hsup
  simp only [exec_mtc0 _ _ hsup]
  exact ⟨rfl, rfl, rfl, rfl, rfl, rfl⟩

/-- Settles O46: CYCLECOUNT is read after the count has moved on, and an undefined number goes by CP0_UNDEF. -/
theorem cp0FreeValues : Obligations.Cp0FreeValues := by
  intro s rt hsup
  refine ⟨?count, fun rd hrd => ?_⟩
  case count =>
    rw [exec_mfc0 _ _ hsup]
    exact writeNext_completes s.countCycles rt s.countCycles.cyclecount
  rw [exec_mfc0 _ _ hsup, exec_mtc0 _ _ hsup, readCp0_undefined rt hrd, writeCp0_undefined _ hrd]
  refine ⟨fun hany => ?_, fun hri => ?_, fun hrefuse => ?_⟩
  · rw [hany]
    exact ⟨writeNext_completes .., ⟨_, rfl, onlySetsPc_jumpTo s _⟩⟩
  · rw [hri]
    exact ⟨⟨_, rfl, trapsTo_raise s .ri⟩, ⟨_, rfl, trapsTo_raise s .ri⟩⟩
  · rw [hrefuse]
    exact ⟨rfl, rfl⟩

/-- Settles O19: what each instruction of the sequence writes is read off SR, whose values are the two constants. -/
theorem bootSequenceEntersUserMode : Obligations.BootSequenceEntersUserMode := by
  intro s rt re hsr
  have hum : s.sr.um = false := by rw [← StatusReg.toWord_um, hsr]; rfl
  have hsup : s.userMode = false := by simp [State.userMode, hum]
  have hwrite : exec (.mtc0 rt 12#5) s = .next { s with sr := StatusReg.ofWord (s.reg rt), pc := s.pc + 4#32 } :=
    exec_mtc0 rt 12#5 hsup
  refine ⟨fun hv => ?_, fun hv hpc => ?_⟩
  · rw [hv] at hwrite
    have hword : (StatusReg.ofWord 0x0000FF13#32).toWord = 0x0000FF13#32 := by decide
    have hreturned : ({ StatusReg.ofWord 0x0000FF13#32 with exl := false } : StatusReg).toWord = 0x0000FF11#32 := by
      decide
    refine ⟨_, hwrite, hword, rfl, rfl, ?_⟩
    refine ⟨_, exec_mtc0 re 14#5 rfl, rfl, rfl, ?_⟩
    exact ⟨_, exec_eret rfl, hreturned, rfl, rfl, rfl, rfl⟩
  · rw [hv] at hwrite
    refine ⟨_, hwrite, rfl, fun hund => ?_⟩
    refine step_of_illegal_pc hund fun ⟨_, hsegment⟩ => ?_
    cases hsegment hpc

/-- Settles O47: a pending request with its mask bit is one of the disjuncts of R320, and `swi_step` says what can
change a request. -/
theorem softwareInterrupts : Obligations.SoftwareInterrupts := by
  refine ⟨fun s rt j hsup hj hbit => ?_, fun s j hj hswi him hie hexl herl hreset => ?_, fun s t => swi_step⟩
  · refine ⟨_, exec_mtc0 rt 13#5 hsup, ?_⟩
    change ((s.reg rt).extractLsb' 8 2).getLsbD j = true
    simp [hj, hbit]
  · have htaken : s.sampled.interruptTaken = true :=
      interruptTaken_iff.mpr ⟨hie, hexl, herl, .inr ⟨j, hj, hswi, him⟩⟩
    exact ⟨_, step_of_interrupt hreset htaken, trapsTo_enterInterrupt s.sampled, hswi⟩

/-- Settles O48: power-on and a later RESET leave SR at `afterReset`, whose ERL keeps interrupts out. -/
theorem resetState : Obligations.ResetState := by
  refine ⟨fun l => ?_, ⟨⟨0#32, [], Config.settings, [], []⟩, rfl⟩, fun s hreset => ?_⟩
  · exact ⟨rfl, StatusReg.afterReset_toWord, rfl, rfl, rfl, rfl, rfl, fun _ => interruptTaken_of_erl rfl⟩
  · exact ⟨_, step_of_reset hreset, rfl, rfl, rfl⟩

/-- Settles O51: R0 has no storage. -/
theorem zeroRegister : Obligations.ZeroRegister := fun s v => ⟨State.reg_zero s, State.setReg_zero s v⟩

end Sys2Proof.Proofs
end

section
/-! PROOFS. Arithmetic, logic, shifts, multiply and divide (40_arith_logic.md): each instruction ends in one of the
shared completions, so that what is left is what its value is, in integers or bit by bit. -/

namespace Sys2Proof.Machine

variable {s t : State}

/-! ## Completions -/

/-- A value that is right bit by bit is the value written. -/
theorem writeNext_bits (s : State) (rd : RegNum) {v : Word} {bit : Nat → Bool}
    (h : ∀ k, k < 32 → v.getLsbD k = bit k) : CompletesWith (s.writeNext rd v) (OnlyWritesBits s rd bit) := by
  obtain ⟨t, ht, honly⟩ := writeNext_completes s rd v
  exact ⟨t, ht, v, h, honly⟩

/-- A value equal to the one written. -/
theorem writeNext_value (s : State) (rd : RegNum) {v v' : Word} (h : v = v') :
    CompletesWith (s.writeNext rd v) (OnlyWritesReg s rd v' (s.pc + 4#32)) :=
  h ▸ writeNext_completes s rd v

/-- A multiply, divide or move to HI and LO completes and only writes them. -/
theorem writeHiLo_completes (s : State) (h l : Word) : CompletesWith (s.writeHiLo h l) (OnlyWritesHiLo s h l) :=
  ⟨_, rfl, onlyWritesHiLo_set s h l⟩

/-- HI and LO are those written, and what is said of them holds of the next state. -/
theorem writeHiLo_post (s : State) {h l : Word} {P : Word → Word → Prop} (hP : P h l) :
    CompletesWith (s.writeHiLo h l) fun t => OnlyWritesHiLo s t.hi t.lo t ∧ P t.hi t.lo :=
  ⟨_, rfl, onlyWritesHiLo_set s h l, hP⟩

/-! ## Sums and differences -/

theorem add_eq_ofInt (a b : Word) : a + b = BitVec.ofInt 32 (a.toInt + b.toInt) := by
  rw [BitVec.ofInt_add, BitVec.ofInt_toInt, BitVec.ofInt_toInt]

theorem sub_eq_ofInt (a b : Word) : a - b = BitVec.ofInt 32 (a.toInt - b.toInt) := by
  apply BitVec.eq_of_toInt_eq
  rw [BitVec.toInt_sub, BitVec.toInt_ofInt]

theorem add_eq_ofNat (a b : Word) : a + b = BitVec.ofNat 32 (a.toNat + b.toNat) := by
  rw [BitVec.ofNat_add, BitVec.ofNat_toNat, BitVec.ofNat_toNat, BitVec.setWidth_eq, BitVec.setWidth_eq]

theorem ofInt_toNat (a : Word) : BitVec.ofInt 32 (a.toNat : Int) = a := by
  simp

theorem sub_eq_ofInt_toNat (a b : Word) : a - b = BitVec.ofInt 32 ((a.toNat : Int) - b.toNat) := by
  rw [Int.sub_eq_add_neg, BitVec.ofInt_add, BitVec.ofInt_neg, ofInt_toNat, ofInt_toNat, BitVec.sub_eq_add_neg]

/-- The signed immediate added modulo 2^32 (R68, R168). -/
theorem add_sext32 (a : Word) (imd16 : BitVec 16) : a + sext32 imd16 = BitVec.ofInt 32 (a.toNat + imd16.toInt) := by
  rw [BitVec.ofInt_add, ofInt_toNat, ← sext32_toInt, BitVec.ofInt_toInt]

/-! ## ADD, SUB and ADDI -/

/-- The completion of ADD, SUB and ADDI in terms of the exact result `n`: OVF when it cannot be represented, else its
word is written (R142, R177). -/
def State.writeExact (s : State) (rd : RegNum) (n : Int) : Result :=
  s.writeUnlessOverflow rd (decide (¬ FitsSigned n)) (BitVec.ofInt 32 n)

theorem exec_add (rs rt rd : RegNum) (s : State) :
    exec (.add rs rt rd) s = s.writeExact rd ((s.reg rs).toInt + (s.reg rt).toInt) := by
  rw [State.writeExact, ← add_eq_ofInt, ← addOverflows_eq]
  rfl

theorem exec_sub (rs rt rd : RegNum) (s : State) :
    exec (.sub rs rt rd) s = s.writeExact rd ((s.reg rs).toInt - (s.reg rt).toInt) := by
  rw [State.writeExact, ← sub_eq_ofInt, ← subOverflows_eq]
  rfl

theorem exec_addi (rs rt : RegNum) (imd16 : BitVec 16) (s : State) :
    exec (.addi rs rt imd16) s = s.writeExact rt ((s.reg rs).toInt + imd16.toInt) := by
  rw [State.writeExact, ← sext32_toInt, ← add_eq_ofInt, ← addOverflows_eq]
  rfl

/-- Without overflow the result is written. -/
theorem writeExact_fits (s : State) (rd : RegNum) {n : Int} (hfits : FitsSigned n) :
    CompletesWith (s.writeExact rd n) (OnlyWritesReg s rd (BitVec.ofInt 32 n) (s.pc + 4#32)) := by
  rw [State.writeExact, decide_eq_false (not_not_intro hfits)]
  exact writeNext_completes ..

/-- On overflow OVF is raised, whatever the destination (R177, D39). -/
theorem writeExact_overflows (s : State) (rd : RegNum) {n : Int} (hfits : ¬ FitsSigned n) :
    CompletesWith (s.writeExact rd n) (TrapsTo s 0b1100#4 s.pc none) := by
  rw [State.writeExact, decide_eq_true hfits]
  exact ⟨_, rfl, trapsTo_raise s .ovf⟩

/-! ## Immediates and shifts -/

/-- The signed immediate as an unsigned number: its value modulo 2^32 (R170). -/
theorem sext32_toNat (imd16 : BitVec 16) : ((sext32 imd16).toNat : Int) = imd16.toInt % 4294967296 := by
  have hlt := (sext32 imd16).isLt
  have hmod : ((sext32 imd16).toNat : Int).bmod (2 ^ 32) % ((2 ^ 32 : Nat) : Int) =
      (sext32 imd16).toNat % ((2 ^ 32 : Nat) : Int) := Int.bmod_emod
  rw [← BitVec.toInt_eq_toNat_bmod, sext32_toInt] at hmod
  omega

theorem getLsbD_zext32 (imd16 : BitVec 16) {k : Nat} (hk : k < 32) :
    (zext32 imd16).getLsbD k = (decide (k < 16) && imd16.getLsbD k) := by
  unfold zext32
  rw [BitVec.zeroExtend_eq_setWidth, BitVec.getLsbD_setWidth, decide_eq_true hk, Bool.true_and]
  by_cases h : k < 16
  · rw [decide_eq_true h, Bool.true_and]
  · rw [BitVec.getLsbD_of_ge _ _ (Nat.not_lt.mp h), Bool.and_false]

theorem getLsbD_upper32 (imd16 : BitVec 16) (k : Nat) :
    (upper32 imd16).getLsbD k = (decide (16 ≤ k) && imd16.getLsbD (k - 16)) := by
  unfold upper32
  rw [BitVec.getLsbD_append]
  by_cases h : k < 16
  · simp [h]
  · simp [h, Nat.not_lt.mp h]

/-- A left shift: zeros enter (R153). -/
theorem shiftLeft_bits (v : Word) (n : Nat) {k : Nat} (hk : k < 32) :
    (v <<< n).getLsbD k = (decide (n ≤ k) && v.getLsbD (k - n)) := by
  rw [BitVec.getLsbD_shiftLeft, decide_eq_true hk, Bool.true_and, ← decide_not]
  simp only [Nat.not_lt]

/-- A logical right shift: zeros enter (R154). -/
theorem shiftRight_bits (v : Word) (n k : Nat) :
    (v >>> n).getLsbD k = (decide (k + n < 32) && v.getLsbD (k + n)) := by
  rw [BitVec.getLsbD_ushiftRight, Nat.add_comm]
  by_cases h : k + n < 32
  · rw [decide_eq_true h, Bool.true_and]
  · rw [BitVec.getLsbD_of_ge _ _ (Nat.not_lt.mp h), Bool.and_false]

/-- An arithmetic right shift: copies of bit 31 enter (R155). -/
theorem sshiftRight_bits (v : Word) (n : Nat) {k : Nat} (hk : k < 32) :
    (v.sshiftRight n).getLsbD k = v.getLsbD (min (k + n) 31) := by
  rw [BitVec.getLsbD_sshiftRight, decide_eq_false (Nat.not_le.mpr hk), Bool.not_false, Bool.true_and,
    Nat.add_comm n k]
  by_cases h : k + n < 32
  · rw [if_pos h, Nat.min_eq_left (Nat.le_of_lt_succ h)]
  · rw [if_neg h, Nat.min_eq_right (by omega)]
    exact BitVec.msb_eq_getLsbD_last v

/-! ## Products -/

theorem highWord_append_lowWord (p : BitVec 64) : highWord p ++ lowWord p = p :=
  BitVec.extractLsb'_append_extractLsb'

theorem natAbs_toInt_le (a : Word) : a.toInt.natAbs ≤ 2147483648 := by
  have hlt := BitVec.toInt_lt (x := a)
  have hle := BitVec.le_toInt (x := a)
  omega

/-- The signed product fits 64 bits: it is at most 2^62 (R159). -/
theorem signedProduct_toInt (a b : Word) : (signedProduct a b).toInt = a.toInt * b.toInt := by
  have hbound : (a.toInt * b.toInt).natAbs ≤ 2147483648 * 2147483648 := by
    rw [Int.natAbs_mul]
    exact Nat.mul_le_mul (natAbs_toInt_le a) (natAbs_toInt_le b)
  unfold signedProduct
  rw [BitVec.toInt_ofInt]
  apply Int.bmod_eq_of_le <;> omega

/-- The unsigned product fits 64 bits (R160). -/
theorem unsignedProduct_toNat (a b : Word) : (unsignedProduct a b).toNat = a.toNat * b.toNat := by
  have hbound : a.toNat * b.toNat < 2 ^ 32 * 2 ^ 32 := Nat.mul_lt_mul'' a.isLt b.isLt
  unfold unsignedProduct
  rw [BitVec.toNat_ofNat]
  exact Nat.mod_eq_of_lt hbound

/-! ## Quotients -/

/-- A number that fits is the value of its word. -/
theorem toInt_ofInt_of_fits {n : Int} (h : FitsSigned n) : (BitVec.ofInt 32 n).toInt = n := by
  obtain ⟨hle, hlt⟩ := h
  rw [BitVec.toInt_ofInt]
  apply Int.bmod_eq_of_le <;> omega

/-- The remainder of a signed division has the sign of the dividend (R161). -/
theorem tmod_sign (a b : Int) : (0 ≤ a → 0 ≤ a.tmod b) ∧ (a < 0 → a.tmod b ≤ 0) := by
  refine ⟨Int.tmod_nonneg b, fun ha => ?_⟩
  have hneg := Int.tmod_nonneg b (a := -a) (by omega)
  rw [Int.neg_tmod] at hneg
  omega

theorem tmod_natAbs_lt (a : Int) {b : Int} (hb : b ≠ 0) : (a.tmod b).natAbs < b.natAbs := by
  rw [Int.natAbs_tmod]
  exact Nat.mod_lt _ (Int.natAbs_pos.mpr hb)

/-- The one quotient that does not fit is that of -2^31 by -1 (R161, R178). -/
theorem signedQuotient_fits {a b : Word} (hb : b.toInt ≠ 0) (hmin : ¬ (a.toInt = -2147483648 ∧ b.toInt = -1)) :
    FitsSigned (signedQuotient a b) := by
  unfold signedQuotient
  have hquot := Int.natAbs_tdiv_le_natAbs a.toInt b.toInt
  have ha := natAbs_toInt_le a
  have halt := BitVec.toInt_lt (x := a)
  have hrem := tmod_natAbs_lt a.toInt hb
  have hid := Int.tmod_add_mul_tdiv a.toInt b.toInt
  refine ⟨by omega, ?_⟩
  by_contra hbig
  have hq : a.toInt.tdiv b.toInt = 2147483648 := by omega
  rw [hq] at hid
  omega

theorem toInt_eq_zero_iff (b : Word) : b.toInt = 0 ↔ b = 0#32 :=
  ⟨fun h => BitVec.eq_of_toInt_eq (h.trans BitVec.toInt_zero.symm), fun h => h ▸ BitVec.toInt_zero⟩

/-- The results of a signed division that has some (R161). -/
theorem divResult_defined {a b : Word} (hb : b ≠ 0#32) (hmin : ¬ (a = 0x80000000#32 ∧ b = 0xFFFFFFFF#32)) :
    (divResult a b).1.toInt = a.toInt.tmod b.toInt ∧ (divResult a b).2.toInt = a.toInt.tdiv b.toInt := by
  have hb0 : b.toInt ≠ 0 := mt (toInt_eq_zero_iff b).mp hb
  have hmin' : ¬ (a.toInt = -2147483648 ∧ b.toInt = -1) := fun ⟨ha, hb⟩ =>
    hmin ⟨BitVec.eq_of_toInt_eq ha, BitVec.eq_of_toInt_eq hb⟩
  have hdefined : divDefined a b = true := by
    simp only [divDefined, Bool.and_eq_true, bne_iff_ne, Bool.not_eq_true', Bool.and_eq_false_imp, beq_iff_eq]
    exact ⟨hb, fun ha => beq_false_of_ne fun hb => hmin ⟨ha, hb⟩⟩
  have hrem : a.toInt - signedQuotient a b * b.toInt = a.toInt.tmod b.toInt := by
    rw [Int.tmod_def, Int.mul_comm]
    rfl
  unfold divResult
  rw [if_pos hdefined, hrem]
  refine ⟨toInt_ofInt_of_fits ?_, toInt_ofInt_of_fits (signedQuotient_fits hb0 hmin')⟩
  have hlt := tmod_natAbs_lt a.toInt hb0
  have hbound := natAbs_toInt_le b
  exact ⟨by omega, by omega⟩

/-- The results of an unsigned division by a divisor that is not zero (R162). -/
theorem divuResult_defined {a b : Word} (hb : b ≠ 0#32) :
    (divuResult a b).1.toNat = a.toNat % b.toNat ∧ (divuResult a b).2.toNat = a.toNat / b.toNat := by
  have ha := a.isLt
  have hrem := Nat.mod_le a.toNat b.toNat
  have hquot := Nat.div_le_self a.toNat b.toNat
  unfold divuResult
  rw [if_pos (bne_iff_ne.mpr hb), BitVec.toNat_ofNat, BitVec.toNat_ofNat]
  exact ⟨Nat.mod_eq_of_lt (by omega), Nat.mod_eq_of_lt (by omega)⟩

/-! ## Which instructions raise OVF -/

/-- OVF is the only cause with its code (R301). -/
theorem Cause.code_ne_ovf {c : Cause} (h : c ≠ .ovf) : c.code ≠ 0b1100#4 := by
  cases c
  case ovf => exact absurd rfl h
  all_goals decide

/-- OVF is the only exception that writes its code. -/
theorem xcode_raise {e : Exc} (h : e ≠ .ovf) : (s.raise e).cr.xcode ≠ 0b1100#4 := by
  refine Cause.code_ne_ovf (c := e.cause) ?_
  cases e
  case ovf => exact absurd rfl h
  all_goals nofun

/-- The exception of an access is never OVF (R302 to R305). -/
theorem accessExc_ne_ovf {a : Word} {w : Width} {k : AccessKind} {e : Exc} (h : s.accessExc a w k = some e) :
    e ≠ .ovf := by
  rcases accessExc_some.mp h with ⟨-, rfl⟩ | ⟨-, -, rfl⟩ <;> cases k <;> nofun

theorem xcode_loadInto {rt : RegNum} {a v : Word} {w : Width} (h : s.loadInto rt a w v = .next t)
    (hs : s.cr.xcode ≠ 0b1100#4) : t.cr.xcode ≠ 0b1100#4 := by
  rcases loadInto_next.mp h with ⟨e, he, rfl⟩ | ⟨-, rfl⟩
  · exact xcode_raise (accessExc_ne_ovf he)
  · exact hs

theorem xcode_storeInto {a : Word} {w : Width} {m : Memory} (h : s.storeInto a w m = .next t)
    (hs : s.cr.xcode ≠ 0b1100#4) : t.cr.xcode ≠ 0b1100#4 := by
  rcases storeInto_next.mp h with ⟨e, he, rfl⟩ | ⟨-, rfl⟩
  · exact xcode_raise (accessExc_ne_ovf he)
  · exact hs

theorem xcode_mfc0 {rt rd : RegNum} (h : execMfc0 rt rd s = .next t) (hs : s.cr.xcode ≠ 0b1100#4) :
    t.cr.xcode ≠ 0b1100#4 := by
  rcases ifPrivileged_next.mp h with ⟨-, h⟩ | ⟨-, rfl⟩
  · rcases readCp0_next h with rfl | ⟨v, c, rfl, -⟩
    · exact xcode_raise nofun
    · exact hs
  · exact xcode_raise nofun

theorem xcode_mtc0 {rt rd : RegNum} (h : execMtc0 rt rd s = .next t) (hs : s.cr.xcode ≠ 0b1100#4) :
    t.cr.xcode ≠ 0b1100#4 := by
  rcases ifPrivileged_next.mp h with ⟨-, h⟩ | ⟨-, rfl⟩
  · rcases writeCp0_next h with rfl | ⟨-, rfl⟩ | ⟨-, rfl⟩ | ⟨-, rfl⟩ | ⟨-, rfl⟩ | rfl
    · exact xcode_raise nofun
    all_goals exact hs
  · exact xcode_raise nofun

theorem xcode_eret (h : execEret s = .next t) (hs : s.cr.xcode ≠ 0b1100#4) : t.cr.xcode ≠ 0b1100#4 := by
  rcases ifPrivileged_next.mp h with ⟨-, h⟩ | ⟨-, rfl⟩
  · cases h
    exact hs
  · exact xcode_raise nofun

/-- Of all instructions only ADD, SUB and ADDI can leave XCODE = OVF behind (R306). -/
theorem ovf_exec {i : Instr} (h : exec i s = .next t) (hs : s.cr.xcode ≠ 0b1100#4) (ht : t.cr.xcode = 0b1100#4) :
    ∃ (rs rt rd : RegNum) (imd16 : BitVec 16), i = .add rs rt rd ∨ i = .sub rs rt rd ∨ i = .addi rs rt imd16 := by
  cases i
  case add rs rt rd => exact ⟨rs, rt, rd, 0, .inl rfl⟩
  case sub rs rt rd => exact ⟨rs, rt, rd, 0, .inr (.inl rfl)⟩
  case addi rs rt imd16 => exact ⟨rs, rt, 0, imd16, .inr (.inr rfl)⟩
  case lb | lbu | lh | lhu | lw => exact absurd ht (xcode_loadInto h hs)
  case sb | sh | sw => exact absurd ht (xcode_storeInto h hs)
  case mfc0 => exact absurd ht (xcode_mfc0 h hs)
  case mtc0 => exact absurd ht (xcode_mtc0 h hs)
  case eret => exact absurd ht (xcode_eret h hs)
  case syscall =>
    cases h
    exact absurd ht (Cause.code_ne_ovf (c := .sys) nofun)
  case breakpoint =>
    cases h
    exact absurd ht (Cause.code_ne_ovf (c := .bp) nofun)
  all_goals
    cases h
    exact absurd ht hs

end Sys2Proof.Machine

/-! ## The statements -/

namespace Sys2Proof.Proofs

open Sys2Proof.Machine

/-- Settles O20: the overflow test is that of representing the exact result, and the wrapped result is its word. -/
theorem signedResultWithoutOverflow : Obligations.SignedResultWithoutOverflow := by
  refine ⟨fun s rs rt rd hfits => ?_, fun s rs rt rd hfits => ?_, fun s rs rt imd16 hfits => ?_⟩
  · rw [exec_add]
    exact writeExact_fits s rd hfits
  · rw [exec_sub]
    exact writeExact_fits s rd hfits
  · rw [exec_addi]
    exact writeExact_fits s rt hfits

/-- Settles O21: the test raises OVF before anything is written, and no other arm raises it. -/
theorem overflowTraps : Obligations.OverflowTraps := by
  refine ⟨fun s rs rt rd hover => ?_, fun s rs rt rd hover => ?_, fun s rs rt imd16 hover => ?_,
    fun i s t => ovf_exec⟩
  · rw [exec_add]
    exact writeExact_overflows s rd hover
  · rw [exec_sub]
    exact writeExact_overflows s rd hover
  · rw [exec_addi]
    exact writeExact_overflows s rt hover

/-- Settles O22: each value is the sum or difference modulo 2^32. -/
theorem wrappingArithmetic : Obligations.WrappingArithmetic := by
  intro s rs rt rd imd16
  exact ⟨writeNext_value s rd (add_eq_ofNat ..), writeNext_value s rd (sub_eq_ofInt_toNat ..),
    writeNext_value s rt (add_sext32 ..)⟩

/-- Settles O23: each value is right in its every bit. -/
theorem bitwiseLogic : Obligations.BitwiseLogic := by
  intro s rs rt rd imd16
  refine ⟨writeNext_bits s rd fun k hk => ?and, writeNext_bits s rd fun k hk => ?or,
    writeNext_bits s rd fun k hk => ?xor, writeNext_bits s rd fun k hk => ?nor,
    writeNext_bits s rt fun k hk => ?andi, writeNext_bits s rt fun k hk => ?ori,
    writeNext_bits s rt fun k hk => ?xori, writeNext_bits s rt fun k hk => ?lui⟩
  case and => exact BitVec.getLsbD_and
  case or => exact BitVec.getLsbD_or
  case xor => exact BitVec.getLsbD_xor
  case nor => rw [BitVec.getLsbD_not, BitVec.getLsbD_or, decide_eq_true hk, Bool.true_and]
  case andi => rw [BitVec.getLsbD_and, getLsbD_zext32 imd16 hk, Bool.and_left_comm, Bool.and_assoc]
  case ori => rw [BitVec.getLsbD_or, getLsbD_zext32 imd16 hk]
  case xori => rw [BitVec.getLsbD_xor, getLsbD_zext32 imd16 hk]
  case lui => exact getLsbD_upper32 imd16 k

/-- Settles O24: each condition is the comparison of the two numbers. -/
theorem comparisonsLeaveABoolean : Obligations.ComparisonsLeaveABoolean := by
  intro s rs rt rd imd16
  refine ⟨writeNext_value s rd ?slt, writeNext_value s rd ?sltu, writeNext_value s rt ?slti,
    writeNext_value s rt ?sltiu⟩
  case slt => simp [boolWord, lessSigned]
  case sltu => simp [boolWord, lessUnsigned]
  case slti => simp [boolWord, lessSigned, sext32_toInt]
  case sltiu => simp [boolWord, lessUnsigned, ← sext32_toNat]

/-- Settles O25: each shift is right in its every bit. -/
theorem shiftsByAConstant : Obligations.ShiftsByAConstant := by
  intro s rt rd sh
  exact ⟨writeNext_bits s rd fun _ => shiftLeft_bits _ _, writeNext_bits s rd fun _ _ => shiftRight_bits ..,
    writeNext_bits s rd fun _ => sshiftRight_bits _ _⟩

/-- Settles O26: the amount is RS modulo 32. -/
theorem shiftsByARegister : Obligations.ShiftsByARegister := by
  intro s rs rt rd n
  have hn : (lowFive (s.reg rs)).toNat = n := lowFive_toNat (s.reg rs)
  rw [← hn]
  exact ⟨writeNext_bits s rd fun _ => shiftLeft_bits _ _, writeNext_bits s rd fun _ _ => shiftRight_bits ..,
    writeNext_bits s rd fun _ => sshiftRight_bits _ _⟩

/-- Settles O27: HI:LO is the 64-bit product, which the integer product fits. -/
theorem productsAreExact : Obligations.ProductsAreExact := by
  intro s rs rt
  refine ⟨writeHiLo_post s (P := fun hi lo => (hi ++ lo).toInt = _) ?mult,
    writeHiLo_post s (P := fun hi lo => (hi ++ lo).toNat = _) ?multu⟩
  case mult => rw [highWord_append_lowWord, signedProduct_toInt]
  case multu => rw [highWord_append_lowWord, unsignedProduct_toNat]

/-- Settles O28: remainder and quotient are those of integer division, truncated toward zero for DIV. -/
theorem definedDivisions : Obligations.DefinedDivisions := by
  refine ⟨fun s rs rt hb hmin => ?_, fun s rs rt hb => ?_⟩
  · obtain ⟨hhi, hlo⟩ := divResult_defined hb hmin
    have hb0 : (s.reg rt).toInt ≠ 0 := mt (toInt_eq_zero_iff _).mp hb
    refine writeHiLo_post s (P := fun hi lo => (s.reg rs).toInt = lo.toInt * (s.reg rt).toInt + hi.toInt ∧
      hi.toInt.natAbs < (s.reg rt).toInt.natAbs ∧ (0 ≤ (s.reg rs).toInt → 0 ≤ hi.toInt) ∧
      ((s.reg rs).toInt < 0 → hi.toInt ≤ 0)) ?_
    rw [hhi, hlo]
    refine ⟨?_, tmod_natAbs_lt _ hb0, tmod_sign _ _⟩
    rw [Int.mul_comm, Int.mul_tdiv_add_tmod]
  · obtain ⟨hhi, hlo⟩ := divuResult_defined (a := s.reg rs) hb
    refine writeHiLo_post s (P := fun hi lo => (s.reg rs).toNat = lo.toNat * (s.reg rt).toNat + hi.toNat ∧
      hi.toNat < (s.reg rt).toNat) ?_
    rw [hhi, hlo]
    refine ⟨?_, Nat.mod_lt _ (Nat.pos_of_ne_zero fun h0 => hb (BitVec.eq_of_toNat_eq h0))⟩
    rw [Nat.mul_comm, Nat.div_add_mod]

/-- Settles O29: a division completes whatever its operands, and its results are a function of them. -/
theorem undefinedDivisionsComplete : Obligations.UndefinedDivisionsComplete := by
  refine ⟨fun s rs rt _ => ⟨_, rfl, onlyWritesHiLo_set ..⟩, fun s rs rt _ => ⟨_, rfl, onlyWritesHiLo_set ..⟩, ?_⟩
  intro s s' t t' rs rt rs' rt' hrs hrt
  refine ⟨fun h h' => ?_, fun h h' => ?_⟩
  all_goals
    cases writeHiLo_next.mp h
    cases writeHiLo_next.mp h'
    rw [hrs, hrt]
    exact ⟨rfl, rfl⟩

/-- Settles O30: each move ends in a write of one register, or of HI and LO. -/
theorem hiLoMoves : Obligations.HiLoMoves :=
  fun s _ => ⟨writeNext_completes .., writeNext_completes .., writeHiLo_completes s .., writeHiLo_completes s ..⟩

end Sys2Proof.Proofs
end

section
/-! PROOFS. Jumps and branches (41_branch_jump.md), loads and stores (42_load_store.md, 20_memory.md): conditions and
targets in integers, the permitted and the failing access, and a load or a fetch after a store. -/

namespace Sys2Proof.Machine

variable {s t : State}

/-! ## Branches -/

/-- A branch goes to its target exactly when its condition, said in integers, holds (R208). -/
theorem branchIf_completes (s : State) (imd16 : BitVec 16) {taken : Bool} {P : Prop} [Decidable P]
    (h : taken = true ↔ P) :
    CompletesWith (s.branchIf taken imd16)
      (OnlySetsPc s (if P then BitVec.ofInt 32 (s.pc.toNat + 4 + 4 * imd16.toInt) else s.pc + 4#32)) := by
  rw [← branchTarget_eq, ← if_congr h rfl rfl]
  exact ⟨_, rfl, onlySetsPc_jumpTo ..⟩

/-- A branch that links writes R31 in any case (R214). -/
theorem branchLinkIf_completes (s : State) (imd16 : BitVec 16) {taken : Bool} {P : Prop} [Decidable P]
    (h : taken = true ↔ P) :
    CompletesWith (s.branchLinkIf taken imd16)
      (OnlyWritesReg s 31#5 (s.pc + 4#32)
        (if P then BitVec.ofInt 32 (s.pc.toNat + 4 + 4 * imd16.toInt) else s.pc + 4#32)) := by
  rw [← branchTarget_eq, ← if_congr h rfl rfl]
  exact ⟨_, rfl, onlyWritesReg_setReg ..⟩

theorem not_isNegative_iff (a : Word) : (!isNegative a) = true ↔ 0 ≤ a.toInt := by
  rw [Bool.not_eq_true', Bool.eq_false_iff, Ne, isNegative_iff, Int.not_lt]

theorem not_isNotPositive_iff (a : Word) : (!isNotPositive a) = true ↔ 0 < a.toInt := by
  rw [Bool.not_eq_true', Bool.eq_false_iff, Ne, isNotPositive_iff, Int.not_le]

/-! ## Accesses -/

/-- A permitted load writes its value. -/
theorem loadInto_value {rt : RegNum} {a v v' : Word} {w : Width} (h : AccessPermitted s a w .load) (hv : v = v') :
    CompletesWith (s.loadInto rt a w v) (OnlyWritesReg s rt v' (s.pc + 4#32)) := by
  rw [loadInto_permitted h, hv]
  exact writeNext_completes ..

/-- A load from an illegal address raises ADEL (R302). -/
theorem loadInto_illegal (rt : RegNum) {a : Word} (v : Word) {w : Width} (h : ¬ AddressLegal s a w) :
    CompletesWith (s.loadInto rt a w v) (TrapsTo s 0b0100#4 s.pc (some a)) :=
  ⟨_, loadInto_traps (accessExc_illegal h), trapsTo_raise s (.adel a)⟩

/-- A load that gets BERR raises DBE (R305). -/
theorem loadInto_busError (rt : RegNum) {a : Word} (v : Word) {w : Width} (h : AddressLegal s a w)
    (hberr : s.busError a w .load = true) : CompletesWith (s.loadInto rt a w v) (TrapsTo s 0b0111#4 s.pc none) :=
  ⟨_, loadInto_traps (accessExc_busError h hberr), trapsTo_raise s .dbe⟩

/-- A store that gets BERR raises DBE (R305). -/
theorem storeInto_busError {a : Word} (m : Memory) {w : Width} (h : AddressLegal s a w)
    (hberr : s.busError a w .store = true) : CompletesWith (s.storeInto a w m) (TrapsTo s 0b0111#4 s.pc none) :=
  ⟨_, storeInto_traps (accessExc_busError h hberr), trapsTo_raise s .dbe⟩

/-- A permitted store leaves the new memory, and what is said of it. -/
theorem storeInto_value {a : Word} {w : Width} {m : Memory} {P : Memory → Prop} (h : AccessPermitted s a w .store)
    (outside : ∀ b, w.covers a b = false → m.byteAt b = s.mem.byteAt b) (hP : P m) :
    CompletesWith (s.storeInto a w m) fun t => OnlyWritesMem s a w t ∧ P t.mem :=
  ⟨_, storeInto_permitted h, onlyWritesMem_store s a w m outside, hP⟩

/-! ## Values in memory -/

theorem halfAt_toNat (m : Memory) (a : Word) :
    (m.halfAt a).toNat = (m.byteAt (a + 1#32)).toNat * 256 + (m.byteAt a).toNat :=
  halfOfBytes_toNat ..

theorem wordAt_toNat (m : Memory) (a : Word) :
    (m.wordAt a).toNat = (m.byteAt (a + 3#32)).toNat * 16777216 + (m.byteAt (a + 2#32)).toNat * 65536 +
      (m.byteAt (a + 1#32)).toNat * 256 + (m.byteAt a).toNat :=
  wordOfBytes_toNat ..

/-- Sign extension keeps the signed value. -/
theorem signExtend_eq_ofInt {n : Nat} (x : BitVec n) (hn : n ≤ 32) : x.signExtend 32 = BitVec.ofInt 32 x.toInt := by
  rw [← BitVec.toInt_signExtend_of_le hn, BitVec.ofInt_toInt]

/-- Zero extension keeps the unsigned value. -/
theorem zeroExtend_eq_ofNat {n : Nat} (x : BitVec n) : x.zeroExtend 32 = BitVec.ofNat 32 x.toNat :=
  BitVec.eq_of_toNat_eq (by simp)

theorem eq_ofNat_toNat (x : Word) : x = BitVec.ofNat 32 x.toNat := by simp

/-! ## Reads after a store of a word -/

variable (m : Memory) (a v : Word)

@[simp] theorem Memory.byteAt_setWord_zero : (m.setWord a v).byteAt a = v.extractLsb' 0 8 := by
  simp [Memory.byteAt_setWord]

@[simp] theorem Memory.byteAt_setWord_one : (m.setWord a v).byteAt (a + 1#32) = v.extractLsb' 8 8 := by
  simp [Memory.byteAt_setWord]

@[simp] theorem Memory.byteAt_setWord_two : (m.setWord a v).byteAt (a + 2#32) = v.extractLsb' 16 8 := by
  simp [Memory.byteAt_setWord]

@[simp] theorem Memory.byteAt_setWord_three : (m.setWord a v).byteAt (a + 3#32) = v.extractLsb' 24 8 := by
  simp [Memory.byteAt_setWord]

/-- The word just stored is the word read (R66). -/
@[simp] theorem Memory.wordAt_setWord : (m.setWord a v).wordAt a = v := by
  simp only [Memory.wordAt, Memory.byteAt_setWord_zero, Memory.byteAt_setWord_one, Memory.byteAt_setWord_two,
    Memory.byteAt_setWord_three]
  exact wordOfBytes_bytes v

theorem Memory.halfAt_setWord_low : (m.setWord a v).halfAt a = v.extractLsb' 0 16 := by
  simp only [Memory.halfAt, Memory.byteAt_setWord_zero, Memory.byteAt_setWord_one]
  exact BitVec.extractLsb'_append_extractLsb'_eq_extractLsb' rfl

theorem Memory.halfAt_setWord_high : (m.setWord a v).halfAt (a + 2#32) = v.extractLsb' 16 16 := by
  have haddr : a + 2#32 + 1#32 = a + 3#32 := BitVec.add_assoc ..
  simp only [Memory.halfAt, haddr, Memory.byteAt_setWord_two, Memory.byteAt_setWord_three]
  exact BitVec.extractLsb'_append_extractLsb'_eq_extractLsb' rfl

/-- The bytes just stored make the word read (R66). -/
theorem Memory.wordAt_setByte (b0 b1 b2 b3 : Byte) :
    ((((m.setByte a b0).setByte (a + 1#32) b1).setByte (a + 2#32) b2).setByte (a + 3#32) b3).wordAt a =
      b3 ++ b2 ++ b1 ++ b0 := by
  simp [Memory.wordAt, Memory.byteAt_setByte]

/-- The half-words just stored make the word read (R66). -/
theorem Memory.wordAt_setHalf (b0 b1 b2 b3 : Byte) :
    ((m.setHalf a (b1 ++ b0)).setHalf (a + 2#32) (b3 ++ b2)).wordAt a = b3 ++ b2 ++ b1 ++ b0 := by
  have haddr : a + 2#32 + 1#32 = a + 3#32 := BitVec.add_assoc ..
  have hbytes (x y : Byte) : (x ++ y).extractLsb' 0 8 = y ∧ (x ++ y).extractLsb' 8 8 = x :=
    ⟨BitVec.extractLsb'_append_eq_right, BitVec.extractLsb'_append_eq_left⟩
  unfold Memory.setHalf
  rw [haddr, (hbytes b1 b0).1, (hbytes b1 b0).2, (hbytes b3 b2).1, (hbytes b3 b2).2]
  exact Memory.wordAt_setByte m a b0 b1 b2 b3

/-! ## A store, then a load or a fetch -/

/-- The bytes stored are fetched (R80). -/
theorem fetch_of_stored {i : Instr} (hmem : s.mem.wordAt s.pc = encode i)
    (hacc : AccessPermitted s s.pc .word .fetch) : s.fetch = .instr i := by
  rw [fetch_of_permitted hacc, hmem, decodeWith_encode]
  rfl

end Sys2Proof.Machine

/-! ## The statements -/

namespace Sys2Proof.Proofs

open Sys2Proof.Machine

/-- Settles O31: each jump sets pc, and those that link write one register. -/
theorem jumps : Obligations.Jumps := by
  intro s rs rd imd26 target
  have htarget : s.jumpTarget imd26 = target := jumpTarget_eq s imd26
  rw [← htarget]
  exact ⟨⟨_, rfl, onlySetsPc_jumpTo ..⟩, ⟨_, rfl, onlyWritesReg_setReg ..⟩, ⟨_, rfl, onlySetsPc_jumpTo ..⟩,
    ⟨_, rfl, onlyWritesReg_setReg ..⟩⟩

/-- Settles O32: each condition is what its instruction tests. -/
theorem conditionalBranches : Obligations.ConditionalBranches := by
  intro s rs rt imd16 target next
  exact ⟨branchIf_completes s imd16 beq_iff_eq, branchIf_completes s imd16 bne_iff_ne,
    branchIf_completes s imd16 (isNotPositive_iff _), branchIf_completes s imd16 (not_isNotPositive_iff _),
    branchIf_completes s imd16 (isNegative_iff _), branchIf_completes s imd16 (not_isNegative_iff _)⟩

/-- Settles O33: the two conditions are tested before R31 is written. -/
theorem linkingBranches : Obligations.LinkingBranches := by
  intro s rs imd16 target next
  exact ⟨branchLinkIf_completes s imd16 (isNegative_iff _), branchLinkIf_completes s imd16 (not_isNegative_iff _)⟩

/-- Settles O34: the sign extension has the value of the immediate, and the sum wraps. -/
theorem effectiveAddress : Obligations.EffectiveAddress := by
  intro s rs imd16
  have hle := BitVec.le_toInt (x := imd16)
  have hlt := BitVec.toInt_lt (x := imd16)
  exact ⟨add_sext32 (s.reg rs) imd16, by omega, by omega⟩

/-- Settles O35: the value a load reads is the number its bytes make, extended. -/
theorem loadsReadMemory : Obligations.LoadsReadMemory := by
  intro s rs rt imd16 a b0 b1 b2 b3
  refine ⟨fun hacc => ⟨?lb, ?lbu⟩, fun hacc => ⟨?lh, ?lhu⟩, fun hacc => ?lw⟩
  case lb => exact loadInto_value hacc (signExtend_eq_ofInt _ (by decide))
  case lbu => exact loadInto_value hacc (zeroExtend_eq_ofNat _)
  case lh => exact loadInto_value hacc (signExtend_eq_ofInt _ (by decide))
  case lhu => exact loadInto_value hacc (halfAt_toNat s.mem a ▸ zeroExtend_eq_ofNat (s.mem.halfAt a))
  case lw => exact loadInto_value hacc (wordAt_toNat s.mem a ▸ eq_ofNat_toNat (s.mem.wordAt a))

/-- Settles O36: the bytes stored are read back at their addresses, and those outside are kept. -/
theorem storesWriteMemory : Obligations.StoresWriteMemory := by
  intro s rs rt imd16 a v
  refine ⟨fun hacc => ?sb, fun hacc => ?sh, fun hacc => ?sw⟩
  case sb =>
    refine storeInto_value (P := fun m => m.byteAt a = _) hacc (fun _ => Memory.setByte_outside) ?_
    simp [Memory.byteAt_setByte, a, v]
  case sh =>
    refine storeInto_value (P := fun m => m.byteAt a = _ ∧ m.byteAt (a + 1#32) = _) hacc
      (fun _ => Memory.setHalf_outside) ?_
    simp [Memory.byteAt_setHalf, a, v]
  case sw =>
    refine storeInto_value (P := fun m => m.byteAt a = _ ∧ m.byteAt (a + 1#32) = _ ∧ m.byteAt (a + 2#32) = _ ∧
      m.byteAt (a + 3#32) = _) hacc (fun _ => Memory.setWord_outside) ?_
    exact ⟨Memory.byteAt_setWord_zero .., Memory.byteAt_setWord_one .., Memory.byteAt_setWord_two ..,
      Memory.byteAt_setWord_three ..⟩

/-- Settles O37: the address check comes before the write of RT. -/
theorem loadAddressErrors : Obligations.LoadAddressErrors := by
  intro s rs rt imd16 a traps
  exact ⟨fun h => ⟨loadInto_illegal rt _ h, loadInto_illegal rt _ h⟩,
    fun h => ⟨loadInto_illegal rt _ h, loadInto_illegal rt _ h⟩, fun h => loadInto_illegal rt _ h⟩

/-- Settles O39: BERR is looked at once the address is legal, and nothing is written. -/
theorem dataBusErrors : Obligations.DataBusErrors := by
  intro s rs rt imd16 w a traps hlegal
  refine ⟨fun hberr => ?loads, fun hberr => ?stores⟩
  case loads =>
    have hload (v : Word) : CompletesWith (s.loadInto rt a w v) traps := loadInto_busError rt v hlegal hberr
    refine ⟨?_, ?_, ?_⟩ <;> rintro rfl
    · exact ⟨hload _, hload _⟩
    · exact ⟨hload _, hload _⟩
    · exact hload _
  case stores =>
    have hstore (m : Memory) : CompletesWith (s.storeInto a w m) traps := storeInto_busError m hlegal hberr
    refine ⟨?_, ?_, ?_⟩ <;> rintro rfl <;> exact hstore _

/-- Settles O40: every read after the stores is made of the bytes they left. -/
theorem mixedWidthAccess : Obligations.MixedWidthAccess := by
  intro m a v
  exact ⟨Memory.byteAt_setWord_zero .., Memory.byteAt_setWord_one .., Memory.byteAt_setWord_two ..,
    Memory.byteAt_setWord_three .., Memory.halfAt_setWord_low .., Memory.halfAt_setWord_high ..,
    Memory.wordAt_setWord .., fun b0 b1 b2 b3 =>
      ⟨Memory.wordAt_setByte m a b0 b1 b2 b3, Memory.wordAt_setHalf m a b0 b1 b2 b3⟩⟩

/-- Settles O41: the store changes neither the registers the load's address is made of nor what its access is checked
against. -/
theorem loadAfterStore : Obligations.LoadAfterStore := by
  intro s rs rt rs' rd imd16 imd16' a hstore hload haddr
  refine ⟨_, storeInto_permitted hstore, ?_⟩
  have hload' : AccessPermitted s (s.effAddr rs' imd16') .word .load := haddr.symm ▸ hload
  refine loadInto_value (s := { s with mem := s.mem.setWord a (s.reg rt), pc := s.pc + 4#32 }) hload' ?_
  change (s.mem.setWord a (s.reg rt)).wordAt (s.effAddr rs' imd16') = s.reg rt
  rw [haddr]
  exact Memory.wordAt_setWord ..

/-- Settles O42: the word at the stored address is the canonical word, which decodes to its instruction under both
settings of DECODE_STRICT. -/
theorem fetchAfterStore : Obligations.FetchAfterStore := by
  intro s rs rt imd16 i hword hstore
  refine ⟨_, storeInto_permitted hstore, fun u hmem hpc hund hacc => ?_⟩
  have hstored : u.mem.wordAt u.pc = encode i := by
    rw [hmem, hpc, ← hword]
    exact Memory.wordAt_setWord ..
  exact step_of_instr (boundary_of_undisturbed hund)
    (fetch_of_stored (s := u.sampled) hstored (accessPermitted_sampled.mpr hacc))

end Sys2Proof.Proofs
end
